-- ==== Sys2Proof/Word.lean ====
section
/-! DEFINITION. Word.lean: the widths every path of the block moves (00_scope.md R9, R10). -/

namespace Sys2Proof

/-- A 32-bit sample word, kept as an opaque pattern (R9, R10); also a register and a configuration operand. -/
abbrev Word := BitVec 32

/-- An element of a byte payload (R9). -/
abbrev Byte := BitVec 8

end Sys2Proof
end

