-- ==== Sys2Proof/Syntax.lean ====
section
/-! DEFINITION. Syntax.lean: ports, commands with their operands, registers and pseudo-instructions of
ABFIFO-1 (30_encoding.md). -/

namespace Sys2Proof

/-- The three command ports (R6): H the host, P the producer, C the consumer. -/
inductive Port
  | host
  | producer
  | consumer
deriving DecidableEq, Repr

/-- The registers of the map of R31, in the order of their addresses. -/
inductive Reg
  | capacity
  | count
  | free
  | head
  | tail
  | status
  | channels
  | rate
  | buftime
  | reqcap
deriving DecidableEq, Repr

/-- The seven operations of the opcode map (R72). -/
inductive Opcode
  | cfgr
  | cfga
  | enq
  | enqd
  | enqb
  | deq
  | rdreg
deriving DecidableEq, Repr

/-- One element of a transaction's payload: a 32-bit word or an 8-bit byte (R70, R76). -/
inductive Elem
  | word (w : Word)
  | byte (b : Byte)
deriving DecidableEq, Repr

/-- The commands with their operands, one constructor per row of the opcode table. The payload of ENQ and
of ENQB is an operand, and LEN is its length (R73, R76). -/
inductive Instr
  /-- CFGR r: configure with a requested capacity (R100). -/
  | cfgr (r : Word)
  /-- CFGA ch, sr, bt: configure from channel count, sampling rate and buffering time (R106). -/
  | cfga (ch sr bt : Word)
  /-- ENQ src: truncating bulk enqueue (R130). -/
  | enq (src : List Word)
  /-- ENQD n: enqueue n default values (R134). -/
  | enqd (n : BitVec 24)
  /-- ENQB raw: byte-stream enqueue (R136). -/
  | enqb (raw : List Byte)
  /-- DEQ d, with z the flag `fillWithDefaultWhenEmpty` (R160, R74). -/
  | deq (d : BitVec 24) (z : Bool)
  /-- RDREG a: read one register (R190). -/
  | rdreg (a : Reg)
deriving DecidableEq, Repr

/-- The operation of a command (R72). -/
def Instr.opcode : Instr → Opcode
  | .cfgr _ => .cfgr
  | .cfga _ _ _ => .cfga
  | .enq _ => .enq
  | .enqd _ => .enqd
  | .enqb _ => .enqb
  | .deq _ _ => .deq
  | .rdreg _ => .rdreg

/-- The pseudo-instructions, which carry the source's API names (R82). -/
inductive Pseudo
  | aenq (src : List Word)
  | aenqb (raw : List Byte)
  | adeq (d : BitVec 24)
  | rdeq (d : BitVec 24)
  | rdcap
  | rdcount
  | rdfree
  | rdhead
  | rdtail
  | rdstat
deriving DecidableEq, Repr

/-- Each pseudo-instruction stands for exactly one command (R82). -/
def Pseudo.expand : Pseudo → Instr
  | .aenq src => .enq src
  | .aenqb raw => .enqb raw
  | .adeq d => .deq d true
  | .rdeq d => .deq d false
  | .rdcap => .rdreg .capacity
  | .rdcount => .rdreg .count
  | .rdfree => .rdreg .free
  | .rdhead => .rdreg .head
  | .rdtail => .rdreg .tail
  | .rdstat => .rdreg .status

end Sys2Proof
end

