-- ==== Sys2Proof/WellFormed.lean ====
section
/-! DEFINITION. WellFormed.lean: which terms of `Instr` an encoding exists for. -/

namespace Sys2Proof

/-- LEN is a 24-bit field, so a payload carries at most 16,777,215 elements (R73). Every other operand has
exactly the width of its field, by its type. -/
def Instr.wf : Instr → Bool
  | .enq src => decide (src.length < 2 ^ 24)
  | .enqb raw => decide (raw.length < 2 ^ 24)
  | .cfgr _ => true
  | .cfga _ _ _ => true
  | .enqd _ => true
  | .deq _ _ => true
  | .rdreg _ => true

end Sys2Proof
end

