-- ==== Sys2Proof/Decode.lean ====
section
/-! DEFINITION. Decode.lean: the command word and its payload (30_encoding.md): fields, decoder, encoder. -/

namespace Sys2Proof

/-! ### Fields of the command word (R71, R77) -/

/-- OP, bits [31:28]. -/
def opField (w : Word) : BitVec 4 := w.extractLsb' 28 4

/-- Z, bit [24] (R74). -/
def zField (w : Word) : Bool := w.getLsbD 24

/-- LEN, bits [23:0] (R73). -/
def lenField (w : Word) : BitVec 24 := w.extractLsb' 0 24

/-- RADDR, bits [7:0] (R75). -/
def raddrField (w : Word) : BitVec 8 := w.extractLsb' 0 8

/-- The opcode map (R72). -/
def Opcode.bits : Opcode → BitVec 4
  | .cfgr => 0x1
  | .cfga => 0x2
  | .enq => 0x4
  | .enqd => 0x5
  | .enqb => 0x6
  | .deq => 0x8
  | .rdreg => 0xC

/-- The operation of an OP value; none for the reserved ones 0x0, 0x3, 0x7, 0x9, 0xA, 0xB, 0xD, 0xE, 0xF (R79). -/
def opcodeOf (op : BitVec 4) : Option Opcode :=
  [Opcode.cfgr, .cfga, .enq, .enqd, .enqb, .deq, .rdreg].find? (fun o => o.bits == op)

/-- The register map's addresses (R31). -/
def Reg.addr : Reg → BitVec 8
  | .capacity => 0x00
  | .count => 0x01
  | .free => 0x02
  | .head => 0x03
  | .tail => 0x04
  | .status => 0x05
  | .channels => 0x06
  | .rate => 0x07
  | .buftime => 0x08
  | .reqcap => 0x09

/-- The register at an address; none for the reserved RADDR 0x0A..0xFF (R75). -/
def regOf (a : BitVec 8) : Option Reg :=
  [Reg.capacity, .count, .free, .head, .tail, .status, .channels, .rate, .buftime, .reqcap].find?
    (fun r => r.addr == a)

/-! ### Decoding -/

/-- Why a transaction is no command. Each is an ERR_ILLEGAL (R201). -/
inductive Reject
  /-- OP is one of the nine reserved values. -/
  | reservedOp
  /-- A reserved field of the command word is not zero. -/
  | reservedField
  /-- RADDR is above 0x09. -/
  | reservedRaddr
  /-- The payload's length is not the one OP and LEN require. -/
  | payloadLength
  /-- An element of the payload has the wrong type. -/
  | payloadType
deriving DecidableEq, Repr

/-- The reserved fields of an operation's command word are zero (R71, R78). -/
def reservedZero (op : Opcode) (w : Word) : Bool :=
  match op with
  | .cfgr => w.extractLsb' 0 28 == 0
  | .cfga => w.extractLsb' 0 28 == 0
  | .enq => w.extractLsb' 24 4 == 0
  | .enqd => w.extractLsb' 24 4 == 0
  | .enqb => w.extractLsb' 24 4 == 0
  | .deq => w.extractLsb' 25 3 == 0
  | .rdreg => w.extractLsb' 8 20 == 0

/-- The payload length required (R76, R80). -/
def payloadLength (op : Opcode) (w : Word) : Nat :=
  match op with
  | .cfgr => 1
  | .cfga => 3
  | .enq => (lenField w).toNat
  | .enqd => 0
  | .enqb => (lenField w).toNat
  | .deq => 0
  | .rdreg => 0

/-- The words of a payload all of whose elements are words. -/
def wordsOf : List Elem → Option (List Word)
  | [] => some []
  | .word w :: es => (wordsOf es).map (w :: ·)
  | .byte _ :: _ => none

/-- The bytes of a payload all of whose elements are bytes. -/
def bytesOf : List Elem → Option (List Byte)
  | [] => some []
  | .byte b :: es => (bytesOf es).map (b :: ·)
  | .word _ :: _ => none

/-- The command of an operation, from the fields of its word and a payload of the required length; none
where an element has the wrong type. DEDUCED, safe: log entry 14. -/
def operands (op : Opcode) (w : Word) (payload : List Elem) : Option Instr :=
  match op with
  | .cfgr =>
    match payload with
    | [.word r] => some (.cfgr r)
    | _ => none
  | .cfga =>
    match payload with
    | [.word ch, .word sr, .word bt] => some (.cfga ch sr bt)
    | _ => none
  | .enq => (wordsOf payload).map .enq
  | .enqd => some (.enqd (lenField w))
  | .enqb => (bytesOf payload).map .enqb
  | .deq => some (.deq (lenField w) (zField w))
  | .rdreg => (regOf (raddrField w)).map .rdreg

/-- Decoding is total on every word and every payload; the checks stand in the order of R78, and the first
that fails names the rejection. The port check of R78 comes after these and is the meanings' (`Machine.permitted`). -/
def decode (w : Word) (payload : List Elem) : Except Reject Instr :=
  match opcodeOf (opField w) with
  | none => .error .reservedOp
  | some op =>
    if !reservedZero op w then .error .reservedField
    else if op == .rdreg && (regOf (raddrField w)).isNone then .error .reservedRaddr
    else if payload.length != payloadLength op w then .error .payloadLength
    else
      match operands op w payload with
      | some i => .ok i
      | none => .error .payloadType

/-! ### Encoding -/

/-- The command word `OP << 28 | Z << 24 | low` (R71, R81). -/
def commandWord (op : Opcode) (z : Bool) (low : BitVec 24) : Word :=
  (op.bits.setWidth 32 <<< 28) ||| ((BitVec.ofBool z).setWidth 32 <<< 24) ||| low.setWidth 32

/-- The transaction of a command: its word and its payload (R76, R81). -/
def encode : Instr → Word × List Elem
  | .cfgr r => (commandWord .cfgr false 0, [.word r])
  | .cfga ch sr bt => (commandWord .cfga false 0, [.word ch, .word sr, .word bt])
  | .enq src => (commandWord .enq false (BitVec.ofNat 24 src.length), src.map .word)
  | .enqd n => (commandWord .enqd false n, [])
  | .enqb raw => (commandWord .enqb false (BitVec.ofNat 24 raw.length), raw.map .byte)
  | .deq d z => (commandWord .deq z d, [])
  | .rdreg a => (commandWord .rdreg false (a.addr.setWidth 24), [])

/-! ### The opcode table's numbering of bits -/

/-- A transaction read from one number: the command word is its low 32 bits, and the payload that OP and
LEN require follows, word j of it at bit 32 + 32 j, byte j at bit 32 + 8 j. Bits from `nbits` on are zero. DESIGN CHOICE, safe: log entry 11. -/
def tableTransaction (nbits w : Nat) : Word × List Elem :=
  let v := w % 2 ^ nbits
  let cw : Word := BitVec.ofNat 32 v
  let payload : List Elem :=
    match opcodeOf (opField cw) with
    | none => []
    | some .enqb =>
      (List.range (payloadLength .enqb cw)).map (fun j => .byte (BitVec.ofNat 8 (v >>> (32 + 8 * j))))
    | some op =>
      (List.range (payloadLength op cw)).map (fun j => .word (BitVec.ofNat 32 (v >>> (32 + 32 * j))))
  (cw, payload)

/-- The command the decoder reads from a transaction numbered as the opcode table numbers its bits. -/
def decodeTableWord (nbits w : Nat) : Option Instr :=
  match decode (tableTransaction nbits w).1 (tableTransaction nbits w).2 with
  | .ok i => some i
  | .error _ => none

end Sys2Proof
end

