-- ==== Sys2Proof/Config.lean ====
section
/-! DEFINITION. Config.lean: the parameters of this hardware (R8; 92_eei_decisions.md, OPEN parameters)
and the values the spec leaves free, each an opaque constant that no proof can evaluate. -/

namespace Sys2Proof.Config

/-- `AW`, log2 of the largest capacity, at this hardware's value (R8). The model takes the parameter as an
argument (`Machine.State aw`, `Machine.execAt`, `Machine.State.advance`); `exec`, `step` and `core` are at this value. -/
abbrev aw : Nat := 24

/-- What DEQ with Z = 1 does with the tail of a partial underrun: parameter `partialUnderrunFill` (D20, I1). -/
inductive PartialFill
  | zero
  | untouched
deriving DecidableEq, Repr

/-- This hardware fills the tail with zeros (R163, D20). Unsafe for another implementation: log entry 12. -/
abbrev partialUnderrunFill : PartialFill := .zero

/-- FREE VALUE. The word of storage slot `slot` that no command has written since the `draw`-th time the
contents of `STOR` became unspecified: reset is draw 0, every later successful configuration or hardware
reset makes the next one (R22, R34; D24, I4, I5, I6: "any value"). DESIGN CHOICE, safe: log entry 2. -/
opaque storFill (draw slot : Nat) : Word

/-- FREE VALUE. The `k`-th choice of the arbiter, and of the ports' arbitrary timing, where the list of
events of `Machine.State` does not say which comes next (R6, R56; D10, I7). DESIGN CHOICE, safe: log entry 3. -/
opaque arbiter (k : Nat) : Nat

/-- OPEN parameter `PLATFORM_BASE`: where a platform places the block. No rule reads it (R51). Safe: log entry 13. -/
opaque platformBase : Nat

end Sys2Proof.Config
end

