-- ==== Sys2Proof/Machine/State.lean ====
section
/-! DEFINITION. Machine/State.lean: everything the spec gives the machine, as plain data: the block's record
(R20), the ports with their commands (R36, R56), the responses and the consumer's buffers (R70, R167, R253). -/

namespace Sys2Proof.Machine

/-- The response codes of R200, which are also the values of LASTERR. The codes 0x6..0xF are never
produced. DEDUCED, safe: log entry 7. -/
inductive Code
  | ok
  | errCfg
  | errUnconf
  | errIllegal
  | errPort
  | errRange
deriving DecidableEq, Repr

/-- MODE (R20): configured by CFGR (a ring) or by CFGA (the depth calculator). -/
inductive Mode
  | ring
  | audio
deriving DecidableEq, Repr

/-- One element of a DEQ response's slot list (R13, R70). -/
inductive Slot
  | write (v : Word)
  | keep
deriving DecidableEq, Repr

/-- The answer to a command (R70). -/
structure Response where
  code : Code
  data : Word
  slots : List Slot
deriving DecidableEq, Repr

/-- A command as a port issues it (R70): the command word and its payload; and, for a DEQ, what the
destination buffer the consumer names holds before the command (R50, R160). DESIGN CHOICE: log entry 5. -/
structure Command where
  word : Word
  payload : List Elem
  dest : List Word
deriving DecidableEq, Repr

/-- The storage `STOR` (R50): pairs of a slot index and the word in the slot, the indices strictly rising.
A slot not listed is one that no command has written since its contents became unspecified.
DESIGN CHOICE, safe: log entries 2 and 4. -/
abbrev Memory := List (Nat × Word)

/-- The block's state: the record of R20, with its widths, for the parameter `AW = aw` (R8, R9). -/
structure Block (aw : Nat) where
  /-- `CFGD`, 1 bit: an instance is configured. -/
  cfgd : Bool
  /-- `MODE`, 1 bit. -/
  mode : Mode
  /-- `CAP`, AW+1 bits: the capacity. -/
  cap : BitVec (aw + 1)
  /-- `STOR[0..2^AW-1]`, 32 bits each. -/
  stor : Memory
  /-- MODEL's own: which draw of unspecified contents stands behind the slots not listed in `stor` (R22). -/
  draw : Nat
  /-- `HEAD`, AW bits: the read cursor. -/
  head : BitVec aw
  /-- `TAIL`, AW bits: the write cursor. -/
  tail : BitVec aw
  /-- `COUNT`, AW+1 bits: the number of buffered words. -/
  count : BitVec (aw + 1)
  /-- `CHANNELS`, 32 bits. -/
  channels : Word
  /-- `RATE`, 32 bits. -/
  rate : Word
  /-- `BUFTIME`, 32 bits. -/
  buftime : Word
  /-- `REQCAP`, 32 bits. -/
  reqcap : Word
  /-- `LASTERR`, 4 bits: the code of the most recent failed command. -/
  lasterr : Code
deriving DecidableEq, Repr

/-- What performing a command on the block comes to (R13): `respond`, with the block after it, or `raise`. -/
inductive Effect (aw : Nat)
  | done (b : Block aw) (data : Word) (slots : List Slot)
  | fail (code : Code)
deriving DecidableEq, Repr

/-- One command port: its entry in the arbiter's pending set (R36), which is the one command it may have
outstanding (R56), and the commands of its list it has still to issue, the next one first (R253). -/
structure PortState where
  outstanding : Option Command
  upcoming : List Command
deriving DecidableEq, Repr

/-- What happens next, between two commands or by one: a port issues its next command (R56), the arbiter
performs a port's outstanding command (R55), or the hardware is reset (R240). -/
inductive Event
  | issue (p : Port)
  | grant (p : Port)
  | reset
deriving DecidableEq, Repr

/-- A command the arbiter has granted, with the port that issued it. -/
structure Transaction where
  port : Port
  command : Command
deriving DecidableEq, Repr

/-- A command that has been answered: who issued it, its response (R70), and what its destination buffer
holds after the response's slots are applied (R167). -/
structure Completion where
  port : Port
  command : Command
  response : Response
  dest : List Word
deriving DecidableEq, Repr

/-- The machine for the parameter `AW = aw` (R8): the block and the three ports that drive it (R6, R253). Where no
argument is written, `State` is the machine of this hardware, whose AW is 24. -/
structure State (aw : Nat := Config.aw) where
  /-- The block (R20). -/
  block : Block aw
  /-- Port H (R6, R36). -/
  host : PortState
  /-- Port P (R6, R36). -/
  producer : PortState
  /-- Port C (R6, R36). -/
  consumer : PortState
  /-- The transaction the arbiter granted last, which is the one being performed (R55). -/
  granted : Transaction
  /-- What happens next, in order: an input, so that every arbitration order is a run (R56). Log entry 3. -/
  events : List Event
  /-- MODEL's own: how many choices that `events` did not make were drawn from `Config.arbiter`. -/
  choices : Nat
  /-- Every command answered so far, in the arbitration order, the oldest first (R253). -/
  log : List Completion
deriving DecidableEq, Repr

/-- Why the machine stops with a fault: never. The block has no traps (60_exceptions.md), and a response
with an error code "is a defined outcome of this hardware, not a model fault" (R209). -/
inductive Fault
deriving DecidableEq, Repr

/-- Why the machine has no next state. -/
inductive Refusal
  /-- Raised by `exec` alone, for an instruction without a meaning. No arm raises it. Safe. -/
  | notModelled (mnemonic : String)
  /-- Raised by `State.happen`, no instruction: a port issues a command before the response to its
  previous one, which is "outside this spec, and no claim covers such a run" (R254, I20). Safe: log entry 10. -/
  | earlyIssue (port : Port)
deriving DecidableEq, Repr

/-- The block's record at hardware reset (R34), with the draw that gives `STOR` its unspecified contents. -/
def Block.reset (aw draw : Nat) : Block aw where
  cfgd := false
  mode := .ring
  cap := 0
  stor := []
  draw := draw
  head := 0
  tail := 0
  count := 0
  channels := 0
  rate := 0
  buftime := 0
  reqcap := 0
  lasterr := .ok

/-- A port that has issued nothing and has nothing to issue. -/
def PortState.idle : PortState where
  outstanding := none
  upcoming := []

/-- The machine for the parameter `AW = aw` right after hardware reset (R34, R240), before any port has a command to
issue. DESIGN CHOICE: log entries 1 and 8. -/
def State.resetAt (aw : Nat) : State aw where
  block := Block.reset aw 0
  host := .idle
  producer := .idle
  consumer := .idle
  granted := ⟨.host, ⟨0, [], []⟩⟩
  events := []
  choices := 0
  log := []

/-- This hardware right after hardware reset (R34, R240). -/
def State.reset : State := State.resetAt Config.aw

end Sys2Proof.Machine
end

