-- ==== Sys2Proof/Machine/Ops.lean ====
section
/-! DEFINITION. Machine/Ops.lean: the named operations on storage, cursors and ports, the answer to a
command, and the one operation by which a command fails (R204). -/

namespace Sys2Proof.Machine

/-! ### Storage (R50, R54): one 32-bit word a slot -/

/-- The word a command wrote into slot `i`, or none where no command has written the slot. -/
def Memory.read? : Memory → Nat → Option Word
  | [], _ => none
  | (a, w) :: m, i => if i = a then some w else Memory.read? m i

/-- `MemWrite(i, 4, v)` (R13). -/
def Memory.write : Memory → Nat → Word → Memory
  | [], i, v => [(i, v)]
  | (a, w) :: m, i, v =>
    if i < a then (i, v) :: (a, w) :: m
    else if i = a then (i, v) :: m
    else (a, w) :: Memory.write m i v

/-- The canonical form: slot indices strictly rising. -/
def Memory.wf : Memory → Bool
  | [] => true
  | [_] => true
  | (a, _) :: (b, w) :: m => decide (a < b) && Memory.wf ((b, w) :: m)

/-- `MemWrite((k + i) mod cap, 4, ws[i])` for every `i` (R130, R133). -/
def Memory.writeRing (cap : Nat) : Nat → List Word → Memory → Memory
  | _, [], m => m
  | k, w :: ws, m => Memory.writeRing cap (k + 1) ws (m.write (k % cap) w)

variable {aw : Nat}

/-- `MemRead(i, 4)` (R13). A slot no command has written reads as its unspecified word (R22). -/
def Block.readSlot (b : Block aw) (i : Nat) : Word :=
  (b.stor.read? i).getD (Config.storFill b.draw i)

/-- `MemRead((k + i) mod CAP, 4)` for `i` in `0 .. n-1` (R160). -/
def Block.readRing (b : Block aw) : Nat → Nat → List Word
  | _, 0 => []
  | k, n + 1 => b.readSlot (k % b.cap.toNat) :: b.readRing (k + 1) n

/-! ### Cursors (R133, R160) -/

/-- `FREE = CAP - COUNT`, computed, not stored (R21). Outside the invariant of R23: log entry 6. -/
def Block.free (b : Block aw) : Nat := b.cap.toNat - b.count.toNat

/-- The part of ENQ, ENQD and ENQB after truncation: write the words from TAIL on, advance TAIL, add to COUNT. -/
def Block.push (b : Block aw) (ws : List Word) : Block aw :=
  { b with
    stor := b.stor.writeRing b.cap.toNat b.tail.toNat ws
    tail := BitVec.ofNat aw ((b.tail.toNat + ws.length) % b.cap.toNat)
    count := BitVec.ofNat (aw + 1) (b.count.toNat + ws.length) }

/-- The part of DEQ that moves the cursors: advance HEAD by `n`, take `n` from COUNT. -/
def Block.pop (b : Block aw) (n : Nat) : Block aw :=
  { b with
    head := BitVec.ofNat aw ((b.head.toNat + n) % b.cap.toNat)
    count := BitVec.ofNat (aw + 1) (b.count.toNat - n) }

/-! ### Configuration (R14, R27, R35) -/

/-- `nextPow2(r)`, the smallest power of two that is at least `r`, for `r ≥ 1` (R14). -/
def nextPow2 (r : Nat) : Nat := if r ≤ 1 then 1 else 2 ^ (Nat.log2 (r - 1) + 1)

/-- The instance a successful configuration makes (R35): it depends on the operands alone, but for LASTERR,
which it keeps (R27), and for the new draw of unspecified storage contents (R22). -/
def Block.configure (b : Block aw) (mode : Mode) (request : Nat) (ch sr bt : Word) : Block aw where
  cfgd := true
  mode := mode
  cap := BitVec.ofNat (aw + 1) (nextPow2 request)
  stor := []
  draw := b.draw + 1
  head := 0
  tail := 0
  count := 0
  channels := ch
  rate := sr
  buftime := bt
  reqcap := BitVec.ofNat 32 request
  lasterr := b.lasterr

/-- The two checks on a requested capacity and what follows them, shared by CFGR and CFGA: 0 fails with
ERR_CFG (R101, R108), more than `2^AW` with ERR_RANGE (R102, R109). -/
def Block.construct (b : Block aw) (mode : Mode) (request : Nat) (ch sr bt : Word) : Effect aw :=
  if request = 0 then .fail .errCfg
  else if 2 ^ aw < request then .fail .errRange
  else .done (b.configure mode request ch sr bt) 0 []

/-! ### Answering a command (R70, R167, R204) -/

/-- What the caller's destination buffer holds once a response's slots are applied (R167). -/
def applySlots : List Word → List Slot → List Word
  | dst, [] => dst
  | [], _ :: _ => []
  | _ :: dst, .write v :: ss => v :: applySlots dst ss
  | d :: dst, .keep :: ss => d :: applySlots dst ss

/-- The granted command gets its response, which is its completion point (R59). -/
def State.answer (s : State aw) (r : Response) : State aw :=
  { s with
    log := s.log ++
      [⟨s.granted.port, s.granted.command, r, applySlots s.granted.command.dest r.slots⟩] }

/-- `respond(OK, data, slots)` (R13): the block after the command, and a response with code OK. -/
def State.respond (s : State aw) (b : Block aw) (data : Word) (slots : List Slot) : State aw :=
  State.answer { s with block := b } ⟨.ok, data, slots⟩

/-- `raise CmdError(code)` (R13, R204): nothing changes but LASTERR, which becomes `code`; the response is
`(code, 0, [])`. There is no vector, no handler and no saved state; the port goes on with its next command. -/
def State.raise (s : State aw) (code : Code) : State aw :=
  State.answer { s with block := { s.block with lasterr := code } } ⟨code, 0, []⟩

/-- The port permissions, which stand in for privilege modes (R210). -/
def permitted (op : Opcode) (p : Port) : Bool :=
  match op, p with
  | .cfgr, .host => true
  | .cfga, .host => true
  | .enq, .producer => true
  | .enqd, .producer => true
  | .enqb, .producer => true
  | .deq, .consumer => true
  | .rdreg, _ => true
  | _, _ => false

/-- Perform a decoded command of operation `op` on the port that was granted: ERR_PORT where the port may
not issue it (R202, R210), else the command's own effect on the block. -/
def State.command (s : State aw) (op : Opcode) (f : Block aw → Effect aw) :
    Host.Outcome (State aw) Fault Refusal :=
  if permitted op s.granted.port then
    match f s.block with
    | .done b data slots => .next (s.respond b data slots)
    | .fail code => .next (s.raise code)
  else .next (s.raise .errPort)

/-! ### Ports (R36, R56) -/

/-- One port's state. -/
def State.port (s : State aw) : Port → PortState
  | .host => s.host
  | .producer => s.producer
  | .consumer => s.consumer

/-- Replace one port's state. -/
def State.setPort (s : State aw) (p : Port) (ps : PortState) : State aw :=
  match p with
  | .host => { s with host := ps }
  | .producer => { s with producer := ps }
  | .consumer => { s with consumer := ps }

/-- The arbiter takes command `c` out of port `p`'s entry of the pending set to perform it (R36, R55). -/
def State.accept (s : State aw) (p : Port) (c : Command) : State aw :=
  { s.setPort p ⟨none, (s.port p).upcoming⟩ with granted := ⟨p, c⟩ }

/-- Port `p` issues the next command of its list; with none left nothing happens. A port that still has a
command outstanding must not (R56), and such a run is outside the spec (R254, I20). -/
def State.issue (s : State aw) (p : Port) : Host.Outcome (State aw) Fault Refusal :=
  match (s.port p).upcoming with
  | [] => .next s
  | c :: cs =>
    match (s.port p).outstanding with
    | none => .next (s.setPort p ⟨some c, cs⟩)
    | some _ => .refused (.earlyIssue p)

/-- A port after a hardware reset: no command outstanding (R240). -/
def PortState.afterReset (ps : PortState) : PortState := ⟨none, ps.upcoming⟩

/-- Hardware reset between two commands (R240): the block as R34 says, its storage unspecified anew; a
command outstanding is not performed and gets no response. DESIGN CHOICE: log entry 9. -/
def State.hardReset (s : State aw) : State aw :=
  { s with
    block := Block.reset aw (s.block.draw + 1)
    host := s.host.afterReset
    producer := s.producer.afterReset
    consumer := s.consumer.afterReset }

/-! ### What may happen where `events` does not say (R56, R61) -/

/-- What port `p` may do next of itself: have its outstanding command performed, or issue its next one. -/
def State.enabledAt (s : State aw) (p : Port) : List Event :=
  match (s.port p).outstanding with
  | some _ => [.grant p]
  | none =>
    match (s.port p).upcoming with
    | [] => []
    | _ :: _ => [.issue p]

/-- What may happen next, hardware reset apart. -/
def State.enabled (s : State aw) : List Event :=
  s.enabledAt .host ++ s.enabledAt .producer ++ s.enabledAt .consumer

end Sys2Proof.Machine
end

