-- ==== Sys2Proof/Machine/Configuration.lean ====
section
/-! DEFINITION. Machine/Configuration.lean: CFGR and CFGA (40_configuration.md). -/

namespace Sys2Proof.Machine

variable {aw : Nat}

/-- CFGR on the block (R100). -/
def Block.cfgr (r : Word) (b : Block aw) : Effect aw :=
  b.construct .ring r.toNat 0 0 0

/-- The depth calculator's product, exact (R107). -/
def depth (ch sr bt : Word) : Nat := ch.toNat * sr.toNat * bt.toNat

/-- CFGA on the block (R106). -/
def Block.cfga (ch sr bt : Word) (b : Block aw) : Effect aw :=
  if ch = 0 ∨ sr = 0 then .fail .errCfg
  else b.construct .audio (depth ch sr bt) ch sr bt

/-- CFGR (R100). -/
def execCfgr (r : Word) (s : State aw) : Host.Outcome (State aw) Fault Refusal :=
  s.command .cfgr (Block.cfgr r)

/-- CFGA (R106). -/
def execCfga (ch sr bt : Word) (s : State aw) : Host.Outcome (State aw) Fault Refusal :=
  s.command .cfga (Block.cfga ch sr bt)

end Sys2Proof.Machine
end

