-- ==== Sys2Proof/Machine/Flags.lean ====
section
/-! DEFINITION. Machine/Flags.lean: the block's only flags, EMPTY and FULL, and the STATUS word (R32, R33). -/

namespace Sys2Proof.Machine

variable {aw : Nat}

/-- The 4-bit value of a response code (R200). -/
def Code.bits : Code → BitVec 4
  | .ok => 0x0
  | .errCfg => 0x1
  | .errUnconf => 0x2
  | .errIllegal => 0x3
  | .errPort => 0x4
  | .errRange => 0x5

/-- The value of MODE: 0 ring, 1 audio (R32). -/
def Mode.bit : Mode → BitVec 1
  | .ring => 0
  | .audio => 1

/-- EMPTY: 1 iff `CFGD = 1` and `COUNT = 0` (R32). -/
def Block.empty (b : Block aw) : Bool := b.cfgd && b.count == 0

/-- FULL: 1 iff `CFGD = 1` and `COUNT = CAP` (R32). -/
def Block.full (b : Block aw) : Bool := b.cfgd && b.count == b.cap

/-- `STATUS = zext_32({LASTERR, 0b0000, FULL, EMPTY, MODE, CFGD})` (R32). -/
def Block.status (b : Block aw) : Word :=
  (b.lasterr.bits ++ (0 : BitVec 4) ++ BitVec.ofBool b.full ++ BitVec.ofBool b.empty ++ b.mode.bit
    ++ BitVec.ofBool b.cfgd).setWidth 32

end Sys2Proof.Machine
end

