-- ==== Sys2Proof/Machine/Operands.lean ====
section
/-! DEFINITION. Machine/Operands.lean: the operand forms: a byte payload as words (R52), a register by its
name (R31, R190), a destination as a list of slots (R160 to R163). -/

namespace Sys2Proof.Machine

variable {aw : Nat}

/-- Four bytes as one word, little-endian: the first byte is the least significant (R52). -/
def wordOfBytes (b0 b1 b2 b3 : Byte) : Word :=
  b0.setWidth 32 ||| (b1.setWidth 32 <<< 8) ||| (b2.setWidth 32 <<< 16) ||| (b3.setWidth 32 <<< 24)

/-- The words of a byte payload, grouped from its byte 0; 1 to 3 trailing bytes are dropped (R53, R136, R138). -/
def wordsOfBytes : List Byte → List Word
  | b0 :: b1 :: b2 :: b3 :: bs => wordOfBytes b0 b1 b2 b3 :: wordsOfBytes bs
  | _ => []

/-- The little-endian image of a word (R137), the inverse of `wordOfBytes`. -/
def bytesOfWord (w : Word) : List Byte :=
  [w.extractLsb' 0 8, w.extractLsb' 8 8, w.extractLsb' 16 8, w.extractLsb' 24 8]

/-- The value RDREG reads (R31, R190). -/
def Block.register (b : Block aw) : Reg → Word
  | .capacity => b.cap.setWidth 32
  | .count => b.count.setWidth 32
  | .free => BitVec.ofNat 32 b.free
  | .head => b.head.setWidth 32
  | .tail => b.tail.setWidth 32
  | .status => b.status
  | .channels => b.channels
  | .rate => b.rate
  | .buftime => b.buftime
  | .reqcap => b.reqcap

/-- What a DEQ does with a destination slot past the buffered words, COUNT being `c` (R161, R162, R163). -/
def tailSlot (fill : Config.PartialFill) (z : Bool) (c : Nat) : Slot :=
  match z with
  | false => .keep
  | true =>
    if c = 0 then .write 0
    else
      match fill with
      | .zero => .write 0
      | .untouched => .keep

/-- The slot list of a DEQ of `d` slots (R160): the oldest words, then the tail. -/
def Block.deqSlots (b : Block aw) (fill : Config.PartialFill) (d : Nat) (z : Bool) : List Slot :=
  (b.readRing b.head.toNat (min d b.count.toNat)).map .write
    ++ List.replicate (d - min d b.count.toNat) (tailSlot fill z b.count.toNat)

end Sys2Proof.Machine
end

