-- ==== Sys2Proof/Machine/Dequeue.lean ====
section
/-! DEFINITION. Machine/Dequeue.lean: DEQ (42_dequeue.md). -/

namespace Sys2Proof.Machine

variable {aw : Nat}

/-- DEQ on the block (R160): the slot list, and the cursors past `min(d, COUNT)` words. -/
def Block.deq (fill : Config.PartialFill) (d : BitVec 24) (z : Bool) (b : Block aw) : Effect aw :=
  if b.cfgd then .done (b.pop (min d.toNat b.count.toNat)) 0 (b.deqSlots fill d.toNat z)
  else .fail .errUnconf

/-- DEQ (R160). -/
def execDeq (d : BitVec 24) (z : Bool) (s : State aw) : Host.Outcome (State aw) Fault Refusal :=
  s.command .deq (Block.deq Config.partialUnderrunFill d z)

end Sys2Proof.Machine
end

