-- ==== Sys2Proof/Machine/Enqueue.lean ====
section
/-! DEFINITION. Machine/Enqueue.lean: ENQ, ENQD and ENQB (41_enqueue.md). -/

namespace Sys2Proof.Machine

variable {aw : Nat}

/-- ENQ on the block: the first `min(L, FREE)` words (R130, R131). -/
def Block.enq (src : List Word) (b : Block aw) : Effect aw :=
  if b.cfgd then .done (b.push (src.take (min src.length b.free))) 0 []
  else .fail .errUnconf

/-- ENQD on the block: `min(N, FREE)` words of the default value 0x00000000 (R134, R11). -/
def Block.enqd (n : BitVec 24) (b : Block aw) : Effect aw :=
  if b.cfgd then .done (b.push (List.replicate (min n.toNat b.free) 0)) 0 []
  else .fail .errUnconf

/-- ENQB on the block: the bytes' words, truncated as ENQ's (R136). -/
def Block.enqb (raw : List Byte) (b : Block aw) : Effect aw :=
  if b.cfgd then .done (b.push ((wordsOfBytes raw).take (min (raw.length / 4) b.free))) 0 []
  else .fail .errUnconf

/-- ENQ (R130). -/
def execEnq (src : List Word) (s : State aw) : Host.Outcome (State aw) Fault Refusal :=
  s.command .enq (Block.enq src)

/-- ENQD (R134). -/
def execEnqd (n : BitVec 24) (s : State aw) : Host.Outcome (State aw) Fault Refusal :=
  s.command .enqd (Block.enqd n)

/-- ENQB (R136). -/
def execEnqb (raw : List Byte) (s : State aw) : Host.Outcome (State aw) Fault Refusal :=
  s.command .enqb (Block.enqb raw)

end Sys2Proof.Machine
end

