-- ==== Sys2Proof/Machine/RegisterRead.lean ====
section
/-! DEFINITION. Machine/RegisterRead.lean: RDREG (43_register_read.md). -/

namespace Sys2Proof.Machine

variable {aw : Nat}

/-- RDREG on the block: the register's value; no state changes (R190). -/
def Block.rdreg (a : Reg) (b : Block aw) : Effect aw := .done b (b.register a) []

/-- RDREG (R190). -/
def execRdreg (a : Reg) (s : State aw) : Host.Outcome (State aw) Fault Refusal :=
  s.command .rdreg (Block.rdreg a)

end Sys2Proof.Machine
end

