-- ==== Sys2Proof/Machine/Execute.lean ====
section
/-! DEFINITION. Machine/Execute.lean: performing a command for any value of the parameter AW (R7, R8). -/

namespace Sys2Proof.Machine

variable {aw : Nat}

/-- `Exec` of R7 for the parameter `AW = aw`. `exec` is this function at the AW of this hardware. -/
def execAt (i : Instr) (s : State aw) : Host.Outcome (State aw) Fault Refusal :=
  match i with
  | .cfgr r => execCfgr r s
  | .cfga ch sr bt => execCfga ch sr bt s
  | .enq src => execEnq src s
  | .enqd n => execEnqd n s
  | .enqb raw => execEnqb raw s
  | .deq d z => execDeq d z s
  | .rdreg a => execRdreg a s

end Sys2Proof.Machine
end

