-- ==== Sys2Proof/Machine/Arbiter.lean ====
section
/-! DEFINITION. Machine/Arbiter.lean: performing an outstanding command, one indivisible step (R55), and
the events a step is made of, for any value of the parameter AW (R8). -/

namespace Sys2Proof.Machine

variable {aw : Nat}

/-- The block performs command `c` of port `p`: decode, ERR_ILLEGAL where it is no command (R78, R79), else
the command's meaning. DEDUCED: log entry 16. -/
def State.perform (s : State aw) (p : Port) (c : Command) : Host.Outcome (State aw) Fault Refusal :=
  match decode c.word c.payload with
  | .ok i => execAt i (s.accept p c)
  | .error _ => .next ((s.accept p c).raise .errIllegal)

/-- One event. The arbiter has nothing to perform for a port without an outstanding command. -/
def State.happen (s : State aw) : Event → Host.Outcome (State aw) Fault Refusal
  | .issue p => s.issue p
  | .grant p =>
    match (s.port p).outstanding with
    | none => .next s
    | some c => s.perform p c
  | .reset => .next s.hardReset

/-- The event of `e :: es` that the free choice `k` names (R56). -/
def choose (k : Nat) (e : Event) (es : List Event) : Event :=
  (e :: es).getD (k % (es.length + 1)) e

/-- What happens where `events` says nothing: with nothing enabled the block is idle and its state stays as
it is (R216); with one event enabled that one (R61); with several a free choice among them (R56). -/
def State.proceed (s : State aw) : Host.Outcome (State aw) Fault Refusal :=
  match s.enabled with
  | [] => .next s
  | [e] => s.happen e
  | e :: es => State.happen { s with choices := s.choices + 1 } (choose (Config.arbiter s.choices) e es)

/-- One step, for any AW: the next entry of `events`, taken off the list, or what the free choice gives. -/
def State.advance (s : State aw) : Host.Outcome (State aw) Fault Refusal :=
  match s.events with
  | [] => s.proceed
  | e :: es => State.happen { s with events := es } e

/-- The machine for the parameter `AW = aw` (R8). `Sys2Proof.core` is this one at the AW of this hardware. -/
def machineAt (aw : Nat) : Host.Core where
  State := State aw
  Fault := Fault
  Refusal := Refusal
  step := State.advance
  reset := State.resetAt aw

/-! ### Programs (R81, R253) -/

/-- A port that may issue an operation (R210). -/
def portOf : Opcode → Port
  | .cfgr => .host
  | .cfga => .host
  | .enq => .producer
  | .enqd => .producer
  | .enqb => .producer
  | .deq => .consumer
  | .rdreg => .host

/-- Port `p` has command `c` outstanding, and the arbiter is about to perform it. -/
def State.place (s : State aw) (p : Port) (c : Command) : State aw :=
  { s.setPort p ⟨some c, (s.port p).upcoming⟩ with events := .grant p :: s.events }

/-- The port of a command word, H for a word that is no command. -/
def portOfWord (w : Word) : Port :=
  match opcodeOf (opField w) with
  | none => .host
  | some op => portOf op

/-- The buffer of zeros that stands for the destination of a command word that is a DEQ. -/
def destOfWord (w : Word) : List Word :=
  match opcodeOf (opField w) with
  | some .deq => List.replicate (lenField w).toNat 0
  | _ => []

/-- A transaction numbered as the opcode table numbers bits, outstanding on a port that may issue it. -/
def State.placeTableWord (s : State aw) (nbits w : Nat) : State aw :=
  let t := tableTransaction nbits w
  s.place (portOfWord t.1) ⟨t.1, t.2, destOfWord t.1⟩

/-- Put a command at the end of its port's list of commands to issue (R253). -/
def State.enlist (s : State aw) (p : Port) (c : Command) : State aw :=
  s.setPort p ⟨(s.port p).outstanding, (s.port p).upcoming ++ [c]⟩

/-- The ports' lists of a program whose lines are in the order of the argument (R81, R253). -/
def State.load (s : State aw) : List (Port × Command) → State aw
  | [] => s
  | (p, c) :: rest => State.load (s.enlist p c) rest

end Sys2Proof.Machine
end

