-- ==== Sys2Proof/Machine/Dispatch.lean ====
section
/-! DEFINITION. Machine/Dispatch.lean: one arm per command (R72). -/

namespace Sys2Proof.Machine

def exec (i : Instr) (s : State) : Host.Outcome State Fault Refusal :=
  match i with
  | .cfgr r => Sys2Proof.Machine.execCfgr r s
  | .cfga ch sr bt => Sys2Proof.Machine.execCfga ch sr bt s
  | .enq src => Sys2Proof.Machine.execEnq src s
  | .enqd n => Sys2Proof.Machine.execEnqd n s
  | .enqb raw => Sys2Proof.Machine.execEnqb raw s
  | .deq d z => Sys2Proof.Machine.execDeq d z s
  | .rdreg a => Sys2Proof.Machine.execRdreg a s

end Sys2Proof.Machine
end

