-- ==== Sys2Proof/Machine/Step.lean ====
section
/-! DEFINITION. Machine/Step.lean: one step of the machine. -/

namespace Sys2Proof.Machine

/-- One step of this hardware: one event, which performs at most one command, whole (R55). -/
def step (s : State) : Host.Outcome State Fault Refusal := s.advance

/-- `s` with the transaction numbered `w` outstanding on a port that may issue it and granted next, which is
where this machine takes its next command from; there is no program counter (R30). -/
def State.withFetchWord (s : State) (nbits w : Nat) : State := s.placeTableWord nbits w

end Sys2Proof.Machine
end

