-- ==== Sys2Proof/Machine/Assembler.lean ====
section
/-! DEFINITION. Machine/Assembler.lean: the assembly syntax (R81) and the pseudo-instructions (R82) as text.
A line becomes the transaction it stands for; numbers are decimal or 0x hexadecimal.
DESIGN CHOICE: log entry 15. -/

namespace Sys2Proof.Machine

/-- The marks and words of a line. -/
inductive Tok
  | name (s : List Char)
  | num (n : Nat)
  | colon
  | comma
  | lbrace
  | rbrace
deriving DecidableEq, Repr

/-- The value of a digit in base `base`. -/
def digit (base : Nat) (c : Char) : Option Nat :=
  let v :=
    if '0' ≤ c && c ≤ '9' then c.toNat - '0'.toNat
    else if 'a' ≤ c && c ≤ 'f' then c.toNat - 'a'.toNat + 10
    else if 'A' ≤ c && c ≤ 'F' then c.toNat - 'A'.toNat + 10
    else base
  if v < base then some v else none

/-- The number that digits in base `base` write, `acc` being that of the digits before them. -/
def digits (base : Nat) : List Char → Nat → Option Nat
  | [], acc => some acc
  | c :: cs, acc =>
    match digit base c with
    | none => none
    | some d => digits base cs (acc * base + d)

/-- A word of letters, digits and dots: a number where it begins with a digit, else a name. -/
def tokOf : List Char → Option Tok
  | [] => none
  | '0' :: 'x' :: [] => none
  | '0' :: 'x' :: c :: cs => (digits 16 (c :: cs) 0).map .num
  | c :: cs => if c.isDigit then (digits 10 (c :: cs) 0).map .num else some (.name (c :: cs))

/-- The word gathered so far, its letters in reverse, before the marks `ts`. -/
def flush (acc : List Char) (ts : Option (List Tok)) : Option (List Tok) :=
  match acc with
  | [] => ts
  | _ :: _ =>
    match tokOf acc.reverse, ts with
    | some t, some ts => some (t :: ts)
    | _, _ => none

/-- The marks and words of a line; none where it holds a character the syntax has no use for. -/
def lex : List Char → List Char → Option (List Tok)
  | [], acc => flush acc (some [])
  | c :: cs, acc =>
    if c.isAlphanum || c == '.' then lex cs (c :: acc)
    else if c == ' ' then flush acc (lex cs [])
    else if c == ':' then flush acc ((lex cs []).map (.colon :: ·))
    else if c == ',' then flush acc ((lex cs []).map (.comma :: ·))
    else if c == Char.ofNat 0x7B then flush acc ((lex cs []).map (.lbrace :: ·))
    else if c == Char.ofNat 0x7D then flush acc ((lex cs []).map (.rbrace :: ·))
    else none

/-- `w0, w1, ...` up to the closing brace. -/
def bracedTail : List Tok → Option (List Nat)
  | [.num n, .rbrace] => some [n]
  | .num n :: .comma :: ts => (bracedTail ts).map (n :: ·)
  | _ => none

/-- A payload in braces; the empty one is legal (R81). -/
def braced : List Tok → Option (List Nat)
  | [.lbrace, .rbrace] => some []
  | .lbrace :: ts => bracedTail ts
  | _ => none

/-- A number as a field of `n` bits, where it fits. -/
def fit (n v : Nat) : Option (BitVec n) := if v < 2 ^ n then some (BitVec.ofNat n v) else none

/-- Every number of a list as a field of `n` bits. -/
def fitAll (n : Nat) : List Nat → Option (List (BitVec n))
  | [] => some []
  | v :: vs =>
    match fit n v, fitAll n vs with
    | some x, some xs => some (x :: xs)
    | _, _ => none

/-- The transaction of a well-formed command. -/
def emit (i : Instr) : Option (Word × List Elem) := if i.wf then some (encode i) else none

/-- The register names of R31. -/
def Reg.ofName (s : List Char) : Option Reg :=
  ([("CAPACITY", Reg.capacity), ("COUNT", .count), ("FREE", .free), ("HEAD", .head), ("TAIL", .tail),
    ("STATUS", .status), ("CHANNELS", .channels), ("RATE", .rate), ("BUFTIME", .buftime),
    ("REQCAP", .reqcap)].find? (fun p => p.1.toList == s)).map Prod.snd

/-- A command with one operand in braces. -/
def bracedForm (n : Nat) (f : List (BitVec n) → Instr) (args : List Tok) : Option (Word × List Elem) :=
  ((braced args).bind (fitAll n)).bind (fun xs => emit (f xs))

/-- A command whose one operand is LEN. -/
def lenForm (f : BitVec 24 → Instr) (args : List Tok) : Option (Word × List Elem) :=
  match args with
  | [.num v] => (fit 24 v).bind (fun n => emit (f n))
  | _ => none

/-- A pseudo-instruction without operands. -/
def bareForm (p : Pseudo) (args : List Tok) : Option (Word × List Elem) :=
  match args with
  | [] => emit p.expand
  | _ => none

/-- `CFGR r`. -/
def cfgrForm (args : List Tok) : Option (Word × List Elem) :=
  match args with
  | [.num r] => (fit 32 r).bind (fun r => emit (.cfgr r))
  | _ => none

/-- `CFGA ch, sr, bt`. -/
def cfgaForm (args : List Tok) : Option (Word × List Elem) :=
  match args with
  | [.num ch, .comma, .num sr, .comma, .num bt] =>
    match fit 32 ch, fit 32 sr, fit 32 bt with
    | some ch, some sr, some bt => emit (.cfga ch sr bt)
    | _, _, _ => none
  | _ => none

/-- `RDREG NAME` or `RDREG a`; an address may be a reserved one, which the block then rejects (R81, R201). -/
def rdregForm (args : List Tok) : Option (Word × List Elem) :=
  match args with
  | [.name s] => (Reg.ofName s).bind (fun a => emit (.rdreg a))
  | [.num v] => (fit 8 v).map (fun a => (commandWord .rdreg false (a.setWidth 24), []))
  | _ => none

/-- A mnemonic, of a command (R81) or of a pseudo-instruction (R82), with its operands. -/
def operation (m : List Char) (args : List Tok) : Option (Word × List Elem) :=
  if m = "CFGR".toList then cfgrForm args
  else if m = "CFGA".toList then cfgaForm args
  else if m = "ENQ".toList then bracedForm 32 .enq args
  else if m = "ENQD".toList then lenForm .enqd args
  else if m = "ENQB".toList then bracedForm 8 .enqb args
  else if m = "DEQ".toList then lenForm (.deq · false) args
  else if m = "DEQ.Z".toList then lenForm (.deq · true) args
  else if m = "RDREG".toList then rdregForm args
  else if m = "AENQ".toList then bracedForm 32 (fun xs => (Pseudo.aenq xs).expand) args
  else if m = "AENQB".toList then bracedForm 8 (fun xs => (Pseudo.aenqb xs).expand) args
  else if m = "ADEQ".toList then lenForm (fun d => (Pseudo.adeq d).expand) args
  else if m = "RDEQ".toList then lenForm (fun d => (Pseudo.rdeq d).expand) args
  else if m = "RDCAP".toList then bareForm .rdcap args
  else if m = "RDCOUNT".toList then bareForm .rdcount args
  else if m = "RDFREE".toList then bareForm .rdfree args
  else if m = "RDHEAD".toList then bareForm .rdhead args
  else if m = "RDTAIL".toList then bareForm .rdtail args
  else if m = "RDSTAT".toList then bareForm .rdstat args
  else none

/-- The port letters of R81. -/
def portOfName (s : List Char) : Option Port :=
  if s = ['H'] then some .host
  else if s = ['P'] then some .producer
  else if s = ['C'] then some .consumer
  else none

/-- One line `<port>: <mnemonic> <operands>` (R81): the port, the command word and the payload. -/
def assembleLine (line : String) : Option (Port × Word × List Elem) :=
  match lex line.toList [] with
  | some (.name p :: .colon :: .name m :: args) =>
    match portOfName p, operation m args with
    | some p, some t => some (p, t)
    | _, _ => none
  | _ => none

/-- A program, one line after another (R81). -/
def assemble : List String → Option (List (Port × Word × List Elem))
  | [] => some []
  | l :: ls =>
    match assembleLine l, assemble ls with
    | some t, some ts => some (t :: ts)
    | _, _ => none

end Sys2Proof.Machine
end

