-- ==== Sys2Proof/Safety.lean ====
section
/-! DEFINITION. Safety.lean: what the spec says holds of every state its commands reach, and the terms
the claims are stated in. -/

namespace Sys2Proof.Machine

variable {aw : Nat}

/-! ### The block -/

/-- The buffered words, the oldest first: what reading COUNT words from HEAD gives (R24). -/
def Block.contents (b : Block aw) : List Word := b.readRing b.head.toNat b.count.toNat

/-- A configured block: the bounds of R23; what R22 says of the live window, that a command wrote each of
its slots; no slot at or above CAP written (R51); and the configuration registers of R35, R100 and R106. -/
structure Block.Configured (b : Block aw) : Prop where
  cap_pow : ∃ k, k ≤ aw ∧ b.cap.toNat = 2 ^ k
  head_lt : b.head.toNat < b.cap.toNat
  tail_lt : b.tail.toNat < b.cap.toNat
  count_le : b.count.toNat ≤ b.cap.toNat
  tail_eq : b.tail.toNat = (b.head.toNat + b.count.toNat) % b.cap.toNat
  slots_lt : ∀ c ∈ b.stor, c.1 < b.cap.toNat
  live : ∀ i, i < b.count.toNat → (b.stor.read? ((b.head.toNat + i) % b.cap.toNat)).isSome = true
  request : 1 ≤ b.reqcap.toNat ∧ b.reqcap.toNat ≤ 2 ^ aw ∧ b.cap.toNat = nextPow2 b.reqcap.toNat
  ring : b.mode = .ring → b.channels = 0 ∧ b.rate = 0 ∧ b.buftime = 0
  audio : b.mode = .audio → b.reqcap.toNat = depth b.channels b.rate b.buftime

/-- An unconfigured block (R25). -/
structure Block.Unconfigured (b : Block aw) : Prop where
  mode_eq : b.mode = .ring
  cap_eq : b.cap = 0
  head_eq : b.head = 0
  tail_eq : b.tail = 0
  count_eq : b.count = 0
  channels_eq : b.channels = 0
  rate_eq : b.rate = 0
  buftime_eq : b.buftime = 0
  reqcap_eq : b.reqcap = 0
  stor_eq : b.stor = []

/-- The invariant of the block: configured or unconfigured as its CFGD says, the storage in canonical form. -/
structure Block.Inv (b : Block aw) : Prop where
  configured : b.cfgd = true → b.Configured
  unconfigured : b.cfgd = false → b.Unconfigured
  stor_wf : b.stor.wf = true

/-- Two records agree on everything a configuration sets and no other command changes (R26). -/
structure Block.SameInstance (a b : Block aw) : Prop where
  cfgd_eq : b.cfgd = a.cfgd
  mode_eq : b.mode = a.mode
  cap_eq : b.cap = a.cap
  draw_eq : b.draw = a.draw
  channels_eq : b.channels = a.channels
  rate_eq : b.rate = a.rate
  buftime_eq : b.buftime = a.buftime
  reqcap_eq : b.reqcap = a.reqcap

/-- The record with another draw of unspecified storage contents (R22). -/
def Block.withDraw (b : Block aw) (d : Nat) : Block aw := { b with draw := d }

/-- The effect with another draw of unspecified storage contents. -/
def Effect.withDraw (e : Effect aw) (d : Nat) : Effect aw :=
  match e with
  | .done b data slots => .done (b.withDraw d) data slots
  | .fail code => .fail code

/-! ### The ports and the run -/

/-- An answered command has the response the spec gives its form: ERR_ILLEGAL for no command (R79), ERR_PORT
for a legal one on the wrong port (R210); data only for RDREG, slots only for DEQ and then as many as it names,
neither in a failed command (R70, R204); and the destination is as the slots leave it (R167). -/
structure Completion.WellAnswered (c : Completion) : Prop where
  failed : c.response.code ≠ .ok → c.response.data = 0 ∧ c.response.slots = []
  illegal : ∀ r, decode c.command.word c.command.payload = .error r → c.response.code = .errIllegal
  legal : ∀ i, decode c.command.word c.command.payload = .ok i →
    c.response.code ≠ .errIllegal ∧ (c.response.code = .errPort ↔ permitted i.opcode c.port = false)
  data : ∀ i, decode c.command.word c.command.payload = .ok i → i.opcode ≠ .rdreg → c.response.data = 0
  slots : ∀ i, decode c.command.word c.command.payload = .ok i → i.opcode ≠ .deq → c.response.slots = []
  deqSlots : ∀ d z, decode c.command.word c.command.payload = .ok (.deq d z) → c.response.code = .ok →
    c.response.slots.length = d.toNat
  dest : c.dest = applySlots c.command.dest c.response.slots

/-- The invariant of the machine. -/
structure State.Inv (s : State aw) : Prop where
  block : s.block.Inv
  log : ∀ c ∈ s.log, c.WellAnswered

/-- Everything of the machine but the block and the log is as it was. -/
structure State.SameOutside (s t : State aw) : Prop where
  host_eq : t.host = s.host
  producer_eq : t.producer = s.producer
  consumer_eq : t.consumer = s.consumer
  granted_eq : t.granted = s.granted
  events_eq : t.events = s.events
  choices_eq : t.choices = s.choices

/-- The log with the granted command answered by `r`, its destination buffer holding `dst`. -/
def State.logWith (s : State aw) (r : Response) (dst : List Word) : List Completion :=
  s.log ++ [⟨s.granted.port, s.granted.command, r, dst⟩]

/-- What R204 says of a command that raises `code`: LASTERR and nothing else of the block changes, the response
is `(code, 0, [])`, the destination is untouched. -/
def State.FailsWith (s t : State aw) (code : Code) : Prop :=
  t.block = { s.block with lasterr := code } ∧
  t.log = s.logWith ⟨code, 0, []⟩ s.granted.command.dest ∧
  s.SameOutside t

/-- The commands of port `p` answered so far, in the order they were performed. -/
def State.answeredOf (s : State aw) (p : Port) : List Command :=
  (s.log.filter (fun c => c.port == p)).map Completion.command

/-- Every command of port `p`: those answered, the outstanding one, those it has still to issue. -/
def State.commandsOf (s : State aw) (p : Port) : List Command :=
  s.answeredOf p ++ ((s.port p).outstanding.toList ++ (s.port p).upcoming)

/-- The events still needed before every command a port holds is answered. -/
def PortState.work (ps : PortState) : Nat := ps.outstanding.toList.length + 2 * ps.upcoming.length

/-- The events still needed before every listed command has its response (R253). -/
def State.work (s : State aw) : Nat := s.host.work + s.producer.work + s.consumer.work

/-- The next event is no hardware reset. -/
def State.noReset (s : State aw) : Prop := s.events.head? ≠ some .reset

end Sys2Proof.Machine
end

