-- ==== Sys2Proof/Certificates/Slice0/Obligations.lean ====
section
/-! DEFINITION. Certificates/Slice0/Obligations.lean: the statements for the provers, from the numbered rules. -/

open Sys2Proof Sys2Proof.Machine

/-! ### Reset -/

/-- R34: what hardware reset leaves. `STOR` is unspecified: no slot holds a word of a command, so each reads as its
free value. Every register of R31 reads 0. -/
def Obligations.ResetLeavesTheSpecifiedState : Prop :=
  let b := State.reset.block
  b.cfgd = false ∧ b.mode = .ring ∧ b.cap = 0 ∧ b.head = 0 ∧ b.tail = 0 ∧ b.count = 0 ∧
  b.channels = 0 ∧ b.rate = 0 ∧ b.buftime = 0 ∧ b.reqcap = 0 ∧ b.lasterr = .ok ∧
  (∀ i, b.readSlot i = Config.storFill b.draw i) ∧
  (∀ a, b.register a = 0)

/-- The invariant of the machine (R23, R25, the canonical storage, the form of every answer) holds at reset. -/
def Obligations.ResetMeetsTheInvariant : Prop := State.reset.Inv

/-- R240: a hardware reset between two commands. The block is as R34 says, its storage unspecified anew (the draw's
number is the model's own, log entry 2); no port has a command outstanding, none that had gets a response, and the
commands a port has still to issue stay (the model's choice, log entry 9). -/
def Obligations.HardwareResetBetweenCommands : Prop :=
  ∀ (s : State) (es : List Event), s.events = .reset :: es →
    ∃ t, step s = .next t ∧
      (∃ d, t.block = Block.reset Config.aw d) ∧
      (∀ p, (t.port p).outstanding = none ∧ (t.port p).upcoming = (s.port p).upcoming) ∧
      t.log = s.log ∧ t.granted = s.granted ∧ t.events = es ∧ t.choices = s.choices

/-! ### Encoding -/

/-- Words written out from R71, R72, R74, R75 and R81, with their payloads, decode to their commands. -/
def Obligations.SpecWordsDecode : Prop :=
  decode 0x10000000 [.word 10] = .ok (.cfgr 10) ∧
  decode 0x20000000 [.word 2, .word 48000, .word 1] = .ok (.cfga 2 48000 1) ∧
  decode 0x40000003 [.word 1, .word 2, .word 3] = .ok (.enq [1, 2, 3]) ∧
  decode 0x50000005 [] = .ok (.enqd 5) ∧
  decode 0x60000004 [.byte 0x00, .byte 0x00, .byte 0x80, .byte 0x3F] = .ok (.enqb [0x00, 0x00, 0x80, 0x3F]) ∧
  decode 0x80000003 [] = .ok (.deq 3 false) ∧
  decode 0x81000004 [] = .ok (.deq 4 true) ∧
  decode 0xC0000009 [] = .ok (.rdreg .reqcap)

/-- Decoding the encoding of any well-formed command gives the command back, every operand at every value. -/
def Obligations.DecodeOfEncode : Prop :=
  ∀ i : Instr, i.wf = true → decode (encode i).1 (encode i).2 = .ok i

/-- Each command has one transaction: what decodes to `i` is the encoding of `i`, and `i` is well formed. -/
def Obligations.EncodeOfDecode : Prop :=
  ∀ (w : Word) (payload : List Elem) (i : Instr), decode w payload = .ok i →
    i.wf = true ∧ encode i = (w, payload)

/-- R201: decode rejects exactly the transactions of the rule's list, and each rejection of it is an ERR_ILLEGAL
when the command is performed. The payloads are those of R76. -/
def Obligations.DecodeRejectsExactlyTheIllegal : Prop :=
  (∀ (w : Word) (payload : List Elem),
    (∃ r, decode w payload = .error r) ↔
      (w.extractLsb' 28 4 ∈ [(0x0 : BitVec 4), 0x3, 0x7, 0x9, 0xA, 0xB, 0xD, 0xE, 0xF]) ∨
      (w.extractLsb' 28 4 ∈ [(0x1 : BitVec 4), 0x2] ∧ w.extractLsb' 0 28 ≠ 0) ∨
      (w.extractLsb' 28 4 ∈ [(0x4 : BitVec 4), 0x5, 0x6] ∧ w.extractLsb' 24 4 ≠ 0) ∨
      (w.extractLsb' 28 4 = 0x8 ∧ w.extractLsb' 25 3 ≠ 0) ∨
      (w.extractLsb' 28 4 = 0xC ∧ (w.extractLsb' 8 20 ≠ 0 ∨ 0x09 < (w.extractLsb' 0 8).toNat)) ∨
      (w.extractLsb' 28 4 = 0x1 ∧ ¬ (payload.length = 1 ∧ ∀ e ∈ payload, ∃ v, e = .word v)) ∨
      (w.extractLsb' 28 4 = 0x2 ∧ ¬ (payload.length = 3 ∧ ∀ e ∈ payload, ∃ v, e = .word v)) ∨
      (w.extractLsb' 28 4 = 0x4 ∧
        ¬ (payload.length = (w.extractLsb' 0 24).toNat ∧ ∀ e ∈ payload, ∃ v, e = .word v)) ∨
      (w.extractLsb' 28 4 = 0x6 ∧
        ¬ (payload.length = (w.extractLsb' 0 24).toNat ∧ ∀ e ∈ payload, ∃ v, e = .byte v)) ∨
      (w.extractLsb' 28 4 ∈ [(0x5 : BitVec 4), 0x8, 0xC] ∧ payload ≠ [])) ∧
  (∀ (s : State) (p : Port) (c : Command) (es : List Event) (r : Reject),
    s.events = .grant p :: es → (s.port p).outstanding = some c →
    decode c.word c.payload = .error r →
    ∃ t, step s = .next t ∧ t.block.lasterr = .errIllegal ∧
      t.log = s.log ++ [⟨p, c, ⟨.errIllegal, 0, []⟩, c.dest⟩])

/-- The masks and matches of the opcode table: a transaction that decodes has the bits its row fixes. -/
def Obligations.DecodedWordsMatchTheirTableRow : Prop :=
  ∀ (w : Word) (payload : List Elem) (i : Instr), decode w payload = .ok i →
    match i.opcode with
    | .cfgr => w &&& 0xFFFFFFFF = 0x10000000
    | .cfga => w &&& 0xFFFFFFFF = 0x20000000
    | .enq => w &&& 0xFF000000 = 0x40000000
    | .enqd => w &&& 0xFF000000 = 0x50000000
    | .enqb => w &&& 0xFF000000 = 0x60000000
    | .deq => w &&& 0xFE000000 = 0x80000000
    | .rdreg => w &&& 0xFFFFFF00 = 0xC0000000

/-- R31: the address of every register, and none above 0x09. -/
def Obligations.RegisterMapAddresses : Prop :=
  decode 0xC0000000 [] = .ok (.rdreg .capacity) ∧ decode 0xC0000001 [] = .ok (.rdreg .count) ∧
  decode 0xC0000002 [] = .ok (.rdreg .free) ∧ decode 0xC0000003 [] = .ok (.rdreg .head) ∧
  decode 0xC0000004 [] = .ok (.rdreg .tail) ∧ decode 0xC0000005 [] = .ok (.rdreg .status) ∧
  decode 0xC0000006 [] = .ok (.rdreg .channels) ∧ decode 0xC0000007 [] = .ok (.rdreg .rate) ∧
  decode 0xC0000008 [] = .ok (.rdreg .buftime) ∧ decode 0xC0000009 [] = .ok (.rdreg .reqcap) ∧
  (∀ a : BitVec 8, 0x09 < a.toNat → decode (0xC0000000 ||| a.setWidth 32) [] = .error .reservedRaddr)

/-- R81, on a line of each form: the assembly syntax gives the command word and payload of the rule's table. The
characters 0x7B and 0x7D are the braces. -/
def Obligations.AssemblyLinesAreTheirTransactions : Prop :=
  assembleLine "H: CFGR 0xA" = some (.host, 0x10000000, [.word 10]) ∧
  assembleLine "H: CFGA 2, 48000, 1" = some (.host, 0x20000000, [.word 2, .word 48000, .word 1]) ∧
  assembleLine "P: ENQ \x7B7, 0x8\x7D" = some (.producer, 0x40000002, [.word 7, .word 8]) ∧
  assembleLine "P: ENQ \x7B\x7D" = some (.producer, 0x40000000, []) ∧
  assembleLine "P: ENQD 5" = some (.producer, 0x50000005, []) ∧
  assembleLine "P: ENQB \x7B1, 0xFF\x7D" = some (.producer, 0x60000002, [.byte 1, .byte 255]) ∧
  assembleLine "C: DEQ 3" = some (.consumer, 0x80000003, []) ∧
  assembleLine "C: DEQ.Z 4" = some (.consumer, 0x81000004, []) ∧
  assembleLine "C: RDREG STATUS" = some (.consumer, 0xC0000005, []) ∧
  assembleLine "C: RDREG 0x0A" = some (.consumer, 0xC000000A, [])

/-- R82: each pseudo-instruction, written as a line of assembly, is the transaction of its one expansion. -/
def Obligations.PseudoInstructionsExpand : Prop :=
  assembleLine "P: AENQ \x7B1, 2\x7D" = assembleLine "P: ENQ \x7B1, 2\x7D" ∧
  assembleLine "P: AENQB \x7B1, 2\x7D" = assembleLine "P: ENQB \x7B1, 2\x7D" ∧
  assembleLine "C: ADEQ 4" = assembleLine "C: DEQ.Z 4" ∧
  assembleLine "C: RDEQ 4" = assembleLine "C: DEQ 4" ∧
  assembleLine "P: RDCAP" = assembleLine "P: RDREG CAPACITY" ∧
  assembleLine "P: RDCOUNT" = assembleLine "P: RDREG COUNT" ∧
  assembleLine "P: RDFREE" = assembleLine "P: RDREG FREE" ∧
  assembleLine "P: RDHEAD" = assembleLine "P: RDREG HEAD" ∧
  assembleLine "P: RDTAIL" = assembleLine "P: RDREG TAIL" ∧
  assembleLine "P: RDSTAT" = some (.producer, 0xC0000005, [])

/-! ### One step -/

/-- A step whose event grants port `p` runs the command its outstanding transaction decodes to: `step` is `exec` of
it at the state in which the arbiter has taken the transaction out of the port's entry, and nothing else of the
machine has changed. -/
def Obligations.StepRunsTheDecodedCommand : Prop :=
  ∀ (s : State) (p : Port) (c : Command) (es : List Event) (i : Instr),
    s.events = .grant p :: es → (s.port p).outstanding = some c → decode c.word c.payload = .ok i →
    ∃ t, step s = exec i t ∧
      t.granted = ⟨p, c⟩ ∧ t.block = s.block ∧ t.events = es ∧ t.choices = s.choices ∧ t.log = s.log ∧
      (t.port p).outstanding = none ∧ (t.port p).upcoming = (s.port p).upcoming ∧
      (∀ q, q ≠ p → t.port q = s.port q)

/-- A step that `events` leaves open, too, performs a command as R7 says: where it answers one, that is the
outstanding command of the port the arbiter chose, whichever that is, and the step is `exec` of what it decodes to, or
an ERR_ILLEGAL. -/
def Obligations.OpenStepsRunTheDecodedCommand : Prop :=
  ∀ s t : State, s.events = [] → step s = .next t → t.log ≠ s.log →
    ∃ (p : Port) (c : Command) (u : State),
      (s.port p).outstanding = some c ∧ u.granted = ⟨p, c⟩ ∧ u.block = s.block ∧ u.log = s.log ∧
      (u.port p).outstanding = none ∧ (u.port p).upcoming = (s.port p).upcoming ∧
      (∀ q, q ≠ p → u.port q = s.port q) ∧
      (∀ i, decode c.word c.payload = .ok i → step s = exec i u) ∧
      (∀ r, decode c.word c.payload = .error r → u.FailsWith t .errIllegal)

/-- R204: an illegal transaction changes nothing of the block but LASTERR, and nothing of the other ports. -/
def Obligations.IllegalTransactionChangesOnlyLasterr : Prop :=
  ∀ (s : State) (p : Port) (c : Command) (es : List Event) (r : Reject),
    s.events = .grant p :: es → (s.port p).outstanding = some c → decode c.word c.payload = .error r →
    ∃ t, step s = .next t ∧
      t.block = { s.block with lasterr := .errIllegal } ∧
      t.log = s.log ++ [⟨p, c, ⟨.errIllegal, 0, []⟩, c.dest⟩] ∧
      t.events = es ∧ t.choices = s.choices ∧
      (t.port p).outstanding = none ∧ (t.port p).upcoming = (s.port p).upcoming ∧
      (∀ q, q ≠ p → t.port q = s.port q)

/-- A port issues the next command of its list when it has none outstanding, and the block does not change; issuing
one before the response to the previous is refused (R254, I20). -/
def Obligations.IssuingACommand : Prop :=
  ∀ (s : State) (p : Port) (c : Command) (cs : List Command) (es : List Event),
    s.events = .issue p :: es → (s.port p).upcoming = c :: cs →
    ((s.port p).outstanding = none →
      ∃ t, step s = .next t ∧ t.port p = ⟨some c, cs⟩ ∧ (∀ q, q ≠ p → t.port q = s.port q) ∧
        t.block = s.block ∧ t.log = s.log ∧ t.events = es ∧ t.granted = s.granted ∧ t.choices = s.choices) ∧
    ((s.port p).outstanding ≠ none → step s = .refused (.earlyIssue p))

/-- R216: with no command pending or to come the block is idle, and its state survives unchanged. -/
def Obligations.IdleBlockKeepsItsState : Prop :=
  ∀ s : State, s.events = [] → (∀ p, s.port p = .idle) → step s = .next s

/-- R7: the block after a command and its response are a function of the block, the port and the command; nothing
else of the machine enters. -/
def Obligations.ExecIsAFunctionOfBlockPortAndCommand : Prop :=
  ∀ (i : Instr) (s s' t t' : State), s.block = s'.block → s.granted.port = s'.granted.port →
    exec i s = .next t → exec i s' = .next t' →
    t.block = t'.block ∧
      ∃ (r : Response) (d d' : List Word), t.log = s.logWith r d ∧ t'.log = s'.logWith r d'

/-- R55: one step performs at most one command, whole. Either no command is answered, and then, unless the event is
a hardware reset, the block is as it was; or exactly one is, the one that was outstanding on its port. -/
def Obligations.StepPerformsAtMostOneCommand : Prop :=
  ∀ s t : State, step s = .next t → s.noReset →
    (t.log = s.log ∧ t.block = s.block) ∨
    (∃ c : Completion, t.log = s.log ++ [c] ∧ (s.port c.port).outstanding = some c.command ∧
      (t.port c.port).outstanding = none)

/-- R56: the commands of one port are performed in the order the port issues them. What a port has had answered, in
order, then its outstanding command, then those to come, is one list that no step but a reset changes. -/
def Obligations.EachPortsCommandsKeepTheirOrder : Prop :=
  ∀ s t : State, step s = .next t → s.noReset → ∀ p, t.commandsOf p = s.commandsOf p

/-- The MODEL'S CHOICE of log entry 3 (the arbiter never idles), which is stronger than the weak fairness the spec
asks for in 20_memory.md section 3: while a port has a command outstanding or to issue, each step that `events` leaves
open brings the run nearer to its end. -/
def Obligations.EveryOpenStepMakesProgress : Prop :=
  ∀ s : State, s.events = [] → (∃ p, s.port p ≠ .idle) →
    ∃ t, step s = .next t ∧ t.events = [] ∧ t.work < s.work

/-- The MODEL'S CHOICE of log entry 3 (the arbiter never idles) gives the bound: exactly `s.work` steps end the run,
where the spec gives eventual granting and no count. From any state whose open choices are the arbiter's, whatever
those choices are, they leave every port idle, and each port's commands have been answered in the order of its list
(that a run ends so, without the count, is what R253 says of a run). -/
def Obligations.EveryListedCommandIsAnswered : Prop :=
  ∀ s : State, s.events = [] →
    ∃ t, Sys2Proof.core.run s.work s = .next t ∧
      ∀ p, t.port p = .idle ∧ t.answeredOf p = s.commandsOf p

/-! ### Errors and ports -/

/-- R210: a legal command on a port marked "no" fails with ERR_PORT and with no effect but LASTERR; on a port marked
"yes" it never does. -/
def Obligations.WrongPortFails : Prop :=
  ∀ (i : Instr) (s : State),
    let no : Prop :=
      match i.opcode with
      | .cfgr => s.granted.port ≠ .host
      | .cfga => s.granted.port ≠ .host
      | .enq => s.granted.port ≠ .producer
      | .enqd => s.granted.port ≠ .producer
      | .enqb => s.granted.port ≠ .producer
      | .deq => s.granted.port ≠ .consumer
      | .rdreg => False
    (no → ∃ t, exec i s = .next t ∧ s.FailsWith t .errPort) ∧
    (¬ no → ∃ t r dst, exec i s = .next t ∧ t.log = s.logWith r dst ∧ r.code ≠ .errPort)

/-- R203: a data command on an unconfigured block fails with ERR_UNCONF. It moves no word, a DEQ returns no slots,
and its destination is untouched. CFGR, CFGA and RDREG never raise ERR_UNCONF. -/
def Obligations.UnconfiguredDataCommandsFail : Prop :=
  (∀ (i : Instr) (s : State), s.block.cfgd = false →
    (((i.opcode = .enq ∨ i.opcode = .enqd ∨ i.opcode = .enqb) ∧ s.granted.port = .producer) ∨
      (i.opcode = .deq ∧ s.granted.port = .consumer)) →
    ∃ t, exec i s = .next t ∧ s.FailsWith t .errUnconf) ∧
  (∀ (i : Instr) (s t : State), i.opcode = .cfgr ∨ i.opcode = .cfga ∨ i.opcode = .rdreg →
    exec i s = .next t → ∀ d sl dst, t.log ≠ s.logWith ⟨.errUnconf, d, sl⟩ dst)

/-- R205: LASTERR is sticky. Over a step that is no hardware reset it changes only when a command fails, to that
command's code; a hardware reset clears it. -/
def Obligations.LasterrIsSticky : Prop :=
  (∀ s t : State, step s = .next t → s.noReset →
    (t.log = s.log ∧ t.block.lasterr = s.block.lasterr) ∨
    (∃ c : Completion, t.log = s.log ++ [c] ∧
      (c.response.code = .ok → t.block.lasterr = s.block.lasterr) ∧
      (c.response.code ≠ .ok → t.block.lasterr = c.response.code))) ∧
  (∀ (s t : State) (es : List Event), s.events = .reset :: es → step s = .next t → t.block.lasterr = .ok) ∧
  (∀ (b : Block Config.aw), (b.register .status).extractLsb' 8 4 = b.lasterr.bits)

/-- R206: the conditions that are not errors: an overflow, an underrun, a byte length that is no multiple of 4, LEN =
0, a capacity that is no power of two, a DEQ with Z = 0 in audio mode. A legal command on its port, with an instance
where it needs one and a request it can meet where it makes one, answers OK and leaves LASTERR, whatever its length
and whatever is buffered. -/
def Obligations.NormalConditionsAreNotErrors : Prop :=
  ∀ (i : Instr) (s : State), permitted i.opcode s.granted.port = true →
    (match i with
      | .cfgr r => 1 ≤ r.toNat ∧ r.toNat ≤ 2 ^ 24
      | .cfga ch sr bt => 1 ≤ ch.toNat * sr.toNat * bt.toNat ∧ ch.toNat * sr.toNat * bt.toNat ≤ 2 ^ 24
      | .enq _ => s.block.cfgd = true
      | .enqd _ => s.block.cfgd = true
      | .enqb _ => s.block.cfgd = true
      | .deq _ _ => s.block.cfgd = true
      | .rdreg _ => True) →
    ∃ t r dst, exec i s = .next t ∧ t.log = s.logWith r dst ∧ r.code = .ok ∧
      t.block.lasterr = s.block.lasterr

/-- R202: a command to which several errors apply reports the first of ERR_ILLEGAL, ERR_PORT, ERR_UNCONF (data
commands), ERR_CFG and ERR_RANGE (CFGR and CFGA); one to which none applies reports OK. -/
def Obligations.FirstApplicableErrorIsReported : Prop :=
  ∀ (s : State) (p : Port) (c : Command) (es : List Event),
    s.events = .grant p :: es → (s.port p).outstanding = some c →
    ∃ t r dst, step s = .next t ∧ t.log = s.log ++ [⟨p, c, r, dst⟩] ∧
      r.code =
        match decode c.word c.payload with
        | .error _ => .errIllegal
        | .ok i =>
          if permitted i.opcode p = false then .errPort
          else
            match i with
            | .cfgr v => if v = 0 then .errCfg else if 2 ^ 24 < v.toNat then .errRange else .ok
            | .cfga ch sr bt =>
              if ch = 0 ∨ sr = 0 ∨ bt = 0 then .errCfg
              else if 2 ^ 24 < ch.toNat * sr.toNat * bt.toNat then .errRange
              else .ok
            | .enq _ => if s.block.cfgd then .ok else .errUnconf
            | .enqd _ => if s.block.cfgd then .ok else .errUnconf
            | .enqb _ => if s.block.cfgd then .ok else .errUnconf
            | .deq _ _ => if s.block.cfgd then .ok else .errUnconf
            | .rdreg _ => .ok

/-! ### Configuration -/

/-- R100, R101, R102: CFGR, which port H alone may issue. A request of 0 fails with ERR_CFG, one above 2^AW with
ERR_RANGE; any other configures the block. Nothing is said of the storage but that no slot holds a word of a command
(R22: unspecified). -/
def Obligations.CfgrConfiguresOrFails : Prop :=
  ∀ (r : Word) (s : State),
    decode 0x10000000 [.word r] = .ok (.cfgr r) ∧
    (s.granted.port ≠ .host → ∃ t, exec (.cfgr r) s = .next t ∧ s.FailsWith t .errPort) ∧
    (s.granted.port = .host → r = 0 → ∃ t, exec (.cfgr r) s = .next t ∧ s.FailsWith t .errCfg) ∧
    (s.granted.port = .host → 2 ^ 24 < r.toNat →
      ∃ t, exec (.cfgr r) s = .next t ∧ s.FailsWith t .errRange) ∧
    (s.granted.port = .host → r ≠ 0 → r.toNat ≤ 2 ^ 24 →
      ∃ t, exec (.cfgr r) s = .next t ∧
        t.block.cfgd = true ∧ t.block.mode = .ring ∧ t.block.cap.toNat = nextPow2 r.toNat ∧
        t.block.head = 0 ∧ t.block.tail = 0 ∧ t.block.count = 0 ∧ t.block.reqcap = r ∧
        t.block.channels = 0 ∧ t.block.rate = 0 ∧ t.block.buftime = 0 ∧
        t.block.lasterr = s.block.lasterr ∧ t.block.empty = true ∧ t.block.full = false ∧
        (∀ j, t.block.stor.read? j = none) ∧
        t.log = s.logWith ⟨.ok, 0, []⟩ s.granted.command.dest ∧ s.SameOutside t)

/-- R106, R107, R108, R109: CFGA, which port H alone may issue. A zero operand fails with ERR_CFG, an exact product
above 2^AW with ERR_RANGE, however far above; any other configures the block to the next power of two of the product.
-/
def Obligations.CfgaConfiguresOrFails : Prop :=
  ∀ (ch sr bt : Word) (s : State),
    decode 0x20000000 [.word ch, .word sr, .word bt] = .ok (.cfga ch sr bt) ∧
    (s.granted.port ≠ .host → ∃ t, exec (.cfga ch sr bt) s = .next t ∧ s.FailsWith t .errPort) ∧
    (s.granted.port = .host → ch = 0 ∨ sr = 0 ∨ bt = 0 →
      ∃ t, exec (.cfga ch sr bt) s = .next t ∧ s.FailsWith t .errCfg) ∧
    (s.granted.port = .host → 2 ^ 24 < ch.toNat * sr.toNat * bt.toNat →
      ∃ t, exec (.cfga ch sr bt) s = .next t ∧ s.FailsWith t .errRange) ∧
    (s.granted.port = .host → 1 ≤ ch.toNat * sr.toNat * bt.toNat →
        ch.toNat * sr.toNat * bt.toNat ≤ 2 ^ 24 →
      ∃ t, exec (.cfga ch sr bt) s = .next t ∧
        t.block.cfgd = true ∧ t.block.mode = .audio ∧
        t.block.cap.toNat = nextPow2 (ch.toNat * sr.toNat * bt.toNat) ∧
        t.block.head = 0 ∧ t.block.tail = 0 ∧ t.block.count = 0 ∧
        t.block.reqcap.toNat = ch.toNat * sr.toNat * bt.toNat ∧
        t.block.channels = ch ∧ t.block.rate = sr ∧ t.block.buftime = bt ∧
        t.block.lasterr = s.block.lasterr ∧ t.block.empty = true ∧ t.block.full = false ∧
        (∀ j, t.block.stor.read? j = none) ∧
        t.log = s.logWith ⟨.ok, 0, []⟩ s.granted.command.dest ∧ s.SameOutside t)

/-- R104: a CFGR or CFGA that fails, for whatever reason, leaves every state element as it was, except LASTERR: the
instance, its buffered words and every slot of its storage among them. -/
def Obligations.FailedConfigurationKeepsTheInstance : Prop :=
  ∀ (i : Instr) (s t : State) (r : Response) (dst : List Word), i.opcode = .cfgr ∨ i.opcode = .cfga →
    exec i s = .next t → t.log = s.logWith r dst → r.code ≠ .ok →
    t.block = { s.block with lasterr := r.code } ∧ t.block.contents = s.block.contents ∧
      (∀ j, t.block.readSlot j = s.block.readSlot j) ∧ s.SameOutside t

/-- R14: `nextPow2(r)` is the smallest power of two that is at least r, for every r ≥ 1. -/
def Obligations.NextPow2IsTheSmallest : Prop :=
  ∀ r : Nat, 1 ≤ r →
    (∃ k, nextPow2 r = 2 ^ k) ∧ r ≤ nextPow2 r ∧ (∀ k, r ≤ 2 ^ k → nextPow2 r ≤ 2 ^ k)

/-- R103, for every value of the parameter AW: the capacity of an accepted request. -/
def Obligations.CapacityRoundingLaw : Prop :=
  ∀ (aw : Nat) (b b' : Block aw) (r data : Word) (slots : List Slot), aw ≤ 31 →
    b.cfgr r = .done b' data slots →
    1 ≤ r.toNat ∧ r.toNat ≤ 2 ^ aw ∧
    b'.cap.toNat = nextPow2 r.toNat ∧
    (∃ k, k ≤ aw ∧ b'.cap.toNat = 2 ^ k) ∧ r.toNat ≤ b'.cap.toNat ∧ b'.cap.toNat < 2 * r.toNat ∧
    (b'.cap.toNat = r.toNat ↔ ∃ k, r.toNat = 2 ^ k)

/-- R27, for every AW: what a successful configuration leaves depends on its operands and AW alone, LASTERR apart,
which it keeps; and apart from the draw of unspecified storage contents (the model's own, log entry 2). -/
def Obligations.ConfigurationReplacesTheInstance : Prop :=
  ∀ (aw : Nat) (a b a' b' : Block aw) (r ch sr bt x x' : Word) (l l' : List Slot),
    ((a.cfgr r = .done a' x l ∧ b.cfgr r = .done b' x' l') ∨
      (a.cfga ch sr bt = .done a' x l ∧ b.cfga ch sr bt = .done b' x' l')) →
    a' = { b' with lasterr := a.lasterr, draw := a'.draw } ∧ a'.lasterr = a.lasterr ∧ b'.lasterr = b.lasterr

/-- R26: no command other than a successful CFGR or CFGA changes CAP. -/
def Obligations.OnlyConfigurationChangesCap : Prop :=
  ∀ s t : State, step s = .next t → s.noReset →
    (t.block.cap = s.block.cap ∧ t.block.cfgd = s.block.cfgd) ∨
    (t.block.cfgd = true ∧ ∃ (c : Completion) (i : Instr), t.log = s.log ++ [c] ∧ c.response.code = .ok ∧
      decode c.command.word c.command.payload = .ok i ∧ (i.opcode = .cfgr ∨ i.opcode = .cfga))

/-- R111, for every AW: MODE changes no rule of ENQ, ENQD, ENQB, DEQ or RDREG. On a block with another MODE each
has the same effect and the same response, but for the MODE bit that STATUS shows. -/
def Obligations.ModeChangesNoDataCommand : Prop :=
  ∀ (aw : Nat) (fill : Config.PartialFill) (b b' : Block aw) (m : Mode) (data : Word) (slots : List Slot),
    (∀ src, b.enq src = .done b' data slots →
      Block.enq src { b with mode := m } = .done { b' with mode := m } data slots) ∧
    (∀ n, b.enqd n = .done b' data slots →
      Block.enqd n { b with mode := m } = .done { b' with mode := m } data slots) ∧
    (∀ raw, b.enqb raw = .done b' data slots →
      Block.enqb raw { b with mode := m } = .done { b' with mode := m } data slots) ∧
    (∀ d z, b.deq fill d z = .done b' data slots →
      Block.deq fill d z { b with mode := m } = .done { b' with mode := m } data slots) ∧
    (∀ a, a ≠ .status → b.rdreg a = .done b' data slots →
      Block.rdreg a { b with mode := m } = .done { b' with mode := m } data slots)

/-! ### Enqueue -/

/-- R130: ENQ, which port P alone may issue: ERR_UNCONF on an unconfigured block; on a configured one, the slots
stored to are `(TAIL + i) mod CAP` for i < n, n being min(L, FREE); every other slot reads as before. -/
def Obligations.EnqBuffersTheFirstWords : Prop :=
  ∀ (src : List Word) (s : State), s.Inv →
    (∀ l : BitVec 24, src.length = l.toNat →
      decode (0x40000000 ||| l.setWidth 32) (src.map .word) = .ok (.enq src)) ∧
    (s.granted.port ≠ .producer → ∃ t, exec (.enq src) s = .next t ∧ s.FailsWith t .errPort) ∧
    (s.granted.port = .producer → s.block.cfgd = false →
      ∃ t, exec (.enq src) s = .next t ∧ s.FailsWith t .errUnconf) ∧
    (s.granted.port = .producer → s.block.cfgd = true →
      let n := min src.length (s.block.cap.toNat - s.block.count.toNat)
      ∃ t, exec (.enq src) s = .next t ∧
        (∀ i, i < n → t.block.readSlot ((s.block.tail.toNat + i) % s.block.cap.toNat) = src.getD i 0) ∧
        (∀ j, (∀ i, i < n → j ≠ (s.block.tail.toNat + i) % s.block.cap.toNat) →
          t.block.readSlot j = s.block.readSlot j) ∧
        t.block.tail.toNat = (s.block.tail.toNat + n) % s.block.cap.toNat ∧
        t.block.count.toNat = s.block.count.toNat + n ∧
        (0 < n → t.block.empty = false) ∧ (t.block.full = true ↔ s.block.count.toNat + n = s.block.cap.toNat) ∧
        (n = 0 → t.block.empty = s.block.empty ∧ t.block.full = s.block.full) ∧
        t.block.head = s.block.head ∧ s.block.SameInstance t.block ∧ t.block.lasterr = s.block.lasterr ∧
        t.log = s.logWith ⟨.ok, 0, []⟩ s.granted.command.dest ∧ s.SameOutside t)

/-- R131: the truncation law. Words that fit are all buffered, behind those already there; of more than FREE words
exactly the first FREE are, COUNT becomes CAP and FREE becomes 0. -/
def Obligations.EnqTruncates : Prop :=
  ∀ (src : List Word) (s t : State), s.Inv → s.granted.port = .producer → s.block.cfgd = true →
    exec (.enq src) s = .next t →
    (src.length ≤ s.block.free → t.block.contents = s.block.contents ++ src) ∧
    (s.block.free < src.length →
      t.block.contents = s.block.contents ++ src.take s.block.free ∧
      t.block.count = t.block.cap ∧ t.block.free = 0)

/-- R134: ENQD, which port P alone may issue: ERR_UNCONF on an unconfigured block; a configured one stores min(N,
FREE) words 0x00000000. -/
def Obligations.EnqdBuffersZeros : Prop :=
  ∀ (n24 : BitVec 24) (s : State), s.Inv →
    decode (0x50000000 ||| n24.setWidth 32) [] = .ok (.enqd n24) ∧
    (s.granted.port ≠ .producer → ∃ t, exec (.enqd n24) s = .next t ∧ s.FailsWith t .errPort) ∧
    (s.granted.port = .producer → s.block.cfgd = false →
      ∃ t, exec (.enqd n24) s = .next t ∧ s.FailsWith t .errUnconf) ∧
    (s.granted.port = .producer → s.block.cfgd = true →
      let n := min n24.toNat (s.block.cap.toNat - s.block.count.toNat)
      ∃ t, exec (.enqd n24) s = .next t ∧
        (∀ i, i < n → t.block.readSlot ((s.block.tail.toNat + i) % s.block.cap.toNat) = 0x00000000) ∧
        (∀ j, (∀ i, i < n → j ≠ (s.block.tail.toNat + i) % s.block.cap.toNat) →
          t.block.readSlot j = s.block.readSlot j) ∧
        t.block.tail.toNat = (s.block.tail.toNat + n) % s.block.cap.toNat ∧
        t.block.count.toNat = s.block.count.toNat + n ∧
        (0 < n → t.block.empty = false) ∧ (t.block.full = true ↔ s.block.count.toNat + n = s.block.cap.toNat) ∧
        (n = 0 → t.block.empty = s.block.empty ∧ t.block.full = s.block.full) ∧
        t.block.head = s.block.head ∧ s.block.SameInstance t.block ∧ t.block.lasterr = s.block.lasterr ∧
        t.log = s.logWith ⟨.ok, 0, []⟩ s.granted.command.dest ∧ s.SameOutside t)

/-- R135, which the spec derives from R130 and R134: ENQD N has exactly the effect and the response of an ENQ of N
zero words, on every state. -/
def Obligations.EnqdIsEnqOfZeros : Prop :=
  ∀ (n : BitVec 24) (s : State), exec (.enqd n) s = exec (.enq (List.replicate n.toNat 0x00000000)) s

/-- R136: ENQB, which port P alone may issue: ERR_UNCONF on an unconfigured block; a configured one stores min(L div
4, FREE) words, word i being the bytes 4i to 4i+3, little-endian. -/
def Obligations.EnqbBuffersDecodedWords : Prop :=
  ∀ (raw : List Byte) (s : State), s.Inv →
    (∀ l : BitVec 24, raw.length = l.toNat →
      decode (0x60000000 ||| l.setWidth 32) (raw.map .byte) = .ok (.enqb raw)) ∧
    (s.granted.port ≠ .producer → ∃ t, exec (.enqb raw) s = .next t ∧ s.FailsWith t .errPort) ∧
    (s.granted.port = .producer → s.block.cfgd = false →
      ∃ t, exec (.enqb raw) s = .next t ∧ s.FailsWith t .errUnconf) ∧
    (s.granted.port = .producer → s.block.cfgd = true →
      let n := min (raw.length / 4) (s.block.cap.toNat - s.block.count.toNat)
      ∃ t, exec (.enqb raw) s = .next t ∧
        (∀ i, i < n → t.block.readSlot ((s.block.tail.toNat + i) % s.block.cap.toNat) =
          (raw.getD (4 * i) 0).setWidth 32 ||| ((raw.getD (4 * i + 1) 0).setWidth 32 <<< 8)
            ||| ((raw.getD (4 * i + 2) 0).setWidth 32 <<< 16) ||| ((raw.getD (4 * i + 3) 0).setWidth 32 <<< 24)) ∧
        (∀ j, (∀ i, i < n → j ≠ (s.block.tail.toNat + i) % s.block.cap.toNat) →
          t.block.readSlot j = s.block.readSlot j) ∧
        t.block.tail.toNat = (s.block.tail.toNat + n) % s.block.cap.toNat ∧
        t.block.count.toNat = s.block.count.toNat + n ∧
        (0 < n → t.block.empty = false) ∧ (t.block.full = true ↔ s.block.count.toNat + n = s.block.cap.toNat) ∧
        (n = 0 → t.block.empty = s.block.empty ∧ t.block.full = s.block.full) ∧
        t.block.head = s.block.head ∧ s.block.SameInstance t.block ∧ t.block.lasterr = s.block.lasterr ∧
        t.log = s.logWith ⟨.ok, 0, []⟩ s.granted.command.dest ∧ s.SameOutside t)

/-- R137: ENQB of the little-endian image of words has exactly the effect of ENQ of the words, on every state. -/
def Obligations.EnqbOfAnImageIsEnq : Prop :=
  ∀ (ws : List Word) (s : State), exec (.enqb (ws.flatMap bytesOfWord)) s = exec (.enq ws) s

/-- R138: the last `L mod 4` bytes of a payload are dropped: ENQB with them has the effect of ENQB without. -/
def Obligations.EnqbDropsTrailingBytes : Prop :=
  ∀ (raw rest : List Byte) (s : State), raw.length % 4 = 0 → rest.length < 4 →
    exec (.enqb (raw ++ rest)) s = exec (.enqb raw) s

/-! ### Dequeue -/

/-- R160: DEQ, which port C alone may issue, for either Z: ERR_UNCONF on an unconfigured block; on a configured one
d slots, the first n = min(d, COUNT) of them the words in slots `(HEAD + i) mod CAP`; HEAD and COUNT move by n;
nothing else of the block changes, no slot of the storage among it. -/
def Obligations.DeqTakesTheOldestWords : Prop :=
  ∀ (d : BitVec 24) (z : Bool) (s : State), s.Inv →
    decode (0x80000000 ||| ((BitVec.ofBool z).setWidth 32 <<< 24) ||| d.setWidth 32) [] = .ok (.deq d z) ∧
    (s.granted.port ≠ .consumer → ∃ t, exec (.deq d z) s = .next t ∧ s.FailsWith t .errPort) ∧
    (s.granted.port = .consumer → s.block.cfgd = false →
      ∃ t, exec (.deq d z) s = .next t ∧ s.FailsWith t .errUnconf) ∧
    (s.granted.port = .consumer → s.block.cfgd = true →
      let n := min d.toNat s.block.count.toNat
      ∃ t slots, exec (.deq d z) s = .next t ∧
        slots.length = d.toNat ∧
        (∀ i, i < n →
          slots[i]? = some (.write (s.block.readSlot ((s.block.head.toNat + i) % s.block.cap.toNat)))) ∧
        (∀ i, n ≤ i → i < d.toNat → slots[i]? = some (if z then Slot.write 0x00000000 else Slot.keep)) ∧
        t.block.head.toNat = (s.block.head.toNat + n) % s.block.cap.toNat ∧
        t.block.count.toNat = s.block.count.toNat - n ∧
        (s.block.count.toNat - n = 0 → t.block.empty = true) ∧ (0 < n → t.block.full = false) ∧
        (n = 0 → t.block.empty = s.block.empty ∧ t.block.full = s.block.full) ∧
        t.block.tail = s.block.tail ∧ (∀ j, t.block.readSlot j = s.block.readSlot j) ∧
        s.block.SameInstance t.block ∧ t.block.lasterr = s.block.lasterr ∧
        t.log = s.logWith ⟨.ok, 0, slots⟩ (applySlots s.granted.command.dest slots) ∧ s.SameOutside t)

/-- R161: with Z = 0 and fewer words buffered than asked for, the destination beyond them is untouched. -/
def Obligations.UnderrunKeepsTheDestination : Prop :=
  ∀ (d : BitVec 24) (s : State), s.granted.port = .consumer → s.block.cfgd = true →
    s.block.count.toNat < d.toNat → s.granted.command.dest.length = d.toNat →
    ∃ t r dst, exec (.deq d false) s = .next t ∧ t.log = s.logWith r dst ∧ r.code = .ok ∧
      (∀ i, i < s.block.count.toNat → dst[i]? = s.block.contents[i]?) ∧
      (∀ i, s.block.count.toNat ≤ i → dst[i]? = s.granted.command.dest[i]?)

/-- R162: with Z = 1 and nothing buffered, every slot is written with 0x00000000, whatever it held, and the cursors
do not change. -/
def Obligations.TotalUnderrunIsSilence : Prop :=
  ∀ (d : BitVec 24) (s : State), s.Inv → s.granted.port = .consumer → s.block.cfgd = true →
    s.block.count = 0 → s.granted.command.dest.length = d.toNat →
    ∃ t, exec (.deq d true) s = .next t ∧
      t.log = s.logWith ⟨.ok, 0, List.replicate d.toNat (.write 0x00000000)⟩
        (List.replicate d.toNat 0x00000000) ∧
      t.block = s.block ∧ s.SameOutside t

/-- R163: with Z = 1 and some words buffered, but fewer than asked for, the words come first and the rest of the
destination is written with 0x00000000. -/
def Obligations.PartialUnderrunIsZeroFilled : Prop :=
  ∀ (d : BitVec 24) (s : State), s.granted.port = .consumer → s.block.cfgd = true →
    0 < s.block.count.toNat → s.block.count.toNat < d.toNat → s.granted.command.dest.length = d.toNat →
    ∃ t, exec (.deq d true) s = .next t ∧
      t.log = s.logWith
        ⟨.ok, 0, s.block.contents.map Slot.write ++
          List.replicate (d.toNat - s.block.count.toNat) (Slot.write 0x00000000)⟩
        (s.block.contents ++ List.replicate (d.toNat - s.block.count.toNat) 0x00000000)

/-- Parameter `partialUnderrunFill` (D20), for every AW: an implementation that leaves the tail untouched returns
the same words and keeps the tail. -/
def Obligations.UntouchedFillKeepsTheTail : Prop :=
  ∀ (aw : Nat) (b : Block aw) (d : BitVec 24), b.cfgd = true → 0 < b.count.toNat →
    b.count.toNat < d.toNat →
    b.deq .untouched d true =
      .done (b.pop b.count.toNat) 0
        (b.contents.map Slot.write ++ List.replicate (d.toNat - b.count.toNat) Slot.keep)

/-- R164, for every AW: words enqueued into an empty block that has room for them, then dequeued, come back in
order, and the block is empty again. -/
def Obligations.FifoRoundTrip : Prop :=
  ∀ (aw : Nat) (fill : Config.PartialFill) (b : Block aw) (src : List Word) (k : BitVec 24) (z : Bool),
    aw ≤ 31 → b.Inv → b.cfgd = true → b.count = 0 → src.length ≤ b.free → k.toNat = src.length →
    ∃ b1 b2, b.enq src = .done b1 0 [] ∧ b1.deq fill k z = .done b2 0 (src.map .write) ∧
      b2.count = 0 ∧ b2.head = b2.tail

/-- R167: a destination after a response's slots: written where a slot writes, kept where it keeps. Every DEQ updates
its destination so, and one that fails returns no slots. -/
def Obligations.SlotsUpdateTheDestination : Prop :=
  (∀ (dst : List Word) (slots : List Slot), slots.length = dst.length →
    (applySlots dst slots).length = dst.length ∧
    (∀ (i : Nat) (v : Word), slots[i]? = some (.write v) → (applySlots dst slots)[i]? = some v) ∧
    (∀ i : Nat, slots[i]? = some .keep → (applySlots dst slots)[i]? = dst[i]?)) ∧
  (∀ (d : BitVec 24) (z : Bool) (s : State),
    ∃ t r dst, exec (.deq d z) s = .next t ∧ t.log = s.logWith r dst ∧
      dst = applySlots s.granted.command.dest r.slots ∧
      (r.code ≠ .ok → r.slots = [] ∧ dst = s.granted.command.dest))

/-! ### Registers -/

/-- R190: RDREG on any port, configured or not, answers the register's value and changes no state; an address above
0x09, or a bit of [27:8] set, is illegal. -/
def Obligations.RdregReadsTheRegister : Prop :=
  (∀ (a : Reg) (s : State),
    ∃ t w v, decode w [] = .ok (.rdreg a) ∧ exec (.rdreg a) s = .next t ∧ t.block = s.block ∧
      t.log = s.logWith ⟨.ok, v, []⟩ s.granted.command.dest ∧ s.SameOutside t ∧
      (match a with
        | .capacity => w = 0xC0000000 ∧ v.toNat = s.block.cap.toNat
        | .count => w = 0xC0000001 ∧ v.toNat = s.block.count.toNat
        | .free => w = 0xC0000002 ∧ v.toNat = s.block.cap.toNat - s.block.count.toNat
        | .head => w = 0xC0000003 ∧ v.toNat = s.block.head.toNat
        | .tail => w = 0xC0000004 ∧ v.toNat = s.block.tail.toNat
        | .status => w = 0xC0000005 ∧ v = s.block.status
        | .channels => w = 0xC0000006 ∧ v = s.block.channels
        | .rate => w = 0xC0000007 ∧ v = s.block.rate
        | .buftime => w = 0xC0000008 ∧ v = s.block.buftime
        | .reqcap => w = 0xC0000009 ∧ v = s.block.reqcap)) ∧
  (∀ x : BitVec 28, 0x09 < x.toNat → ∃ r, decode (0xC0000000 ||| x.setWidth 32) [] = .error r)

/-- R32: every field of STATUS. -/
def Obligations.StatusFields : Prop :=
  ∀ (aw : Nat) (b : Block aw),
    (b.status.getLsbD 0 = true ↔ b.cfgd = true) ∧
    (b.status.getLsbD 1 = true ↔ b.mode = .audio) ∧
    (b.status.getLsbD 2 = true ↔ b.cfgd = true ∧ b.count = 0) ∧
    (b.status.getLsbD 3 = true ↔ b.cfgd = true ∧ b.count = b.cap) ∧
    b.status.extractLsb' 4 4 = 0 ∧
    b.status.extractLsb' 8 4 = b.lasterr.bits ∧
    b.status.extractLsb' 12 20 = 0

/-- R25: while CFGD = 0 every register but STATUS reads 0, and STATUS shows LASTERR alone. -/
def Obligations.UnconfiguredRegistersReadZero : Prop :=
  ∀ b : Block Config.aw, b.Inv → b.cfgd = false →
    (∀ a, a ≠ .status → b.register a = 0) ∧ b.register .status = b.lasterr.bits.setWidth 32 <<< 8

/-- R21 and R190: `COUNT + FREE = CAPACITY`, as the registers read, in every state that meets the invariant. -/
def Obligations.CountPlusFreeIsCapacity : Prop :=
  ∀ b : Block Config.aw, b.Inv →
    (b.register .count).toNat + (b.register .free).toNat = (b.register .capacity).toNat

/-! ### Whole-machine rules -/

/-- Every step keeps the invariant of the machine: the bounds and the cursor equation of R23, the unconfigured
values of R25, a live window every slot of which a command wrote (R22), the storage in canonical form with no slot
at or above CAP (R51), and every answer of the form its command has (R70, R79, R167, R204, R210). -/
def Obligations.EveryStepKeepsTheInvariant : Prop :=
  ∀ s t : State, s.Inv → step s = .next t → t.Inv

/-- R23, for every value of the parameter AW: each command's effect on the block keeps the block's invariant. -/
def Obligations.EffectsKeepTheInvariantForEveryAw : Prop :=
  ∀ (aw : Nat) (fill : Config.PartialFill) (b b' : Block aw) (data : Word) (slots : List Slot),
    aw ≤ 31 → b.Inv →
    ((∃ r, b.cfgr r = .done b' data slots) ∨ (∃ ch sr bt, b.cfga ch sr bt = .done b' data slots) ∨
      (∃ src, b.enq src = .done b' data slots) ∨ (∃ n, b.enqd n = .done b' data slots) ∨
      (∃ raw, b.enqb raw = .done b' data slots) ∨ (∃ d z, b.deq fill d z = .done b' data slots) ∨
      (∃ a, b.rdreg a = .done b' data slots)) →
    b'.Inv

/-- R24 and R57 (b), (c), for every AW: the block is a bounded queue. `contents` is the queue of words enqueued
since the last configuration and not yet dequeued: an enqueue puts the words it takes behind them, a dequeue
returns the oldest min(d, COUNT) in order and takes them away, a read changes nothing, a configuration empties it.
-/
def Obligations.BlockRefinesABoundedQueue : Prop :=
  ∀ (aw : Nat) (fill : Config.PartialFill) (b b' : Block aw) (data : Word) (slots : List Slot),
    aw ≤ 31 → b.Inv →
    b.contents.length = b.count.toNat ∧
    (∀ r, b.cfgr r = .done b' data slots → b'.contents = []) ∧
    (∀ ch sr bt, b.cfga ch sr bt = .done b' data slots → b'.contents = []) ∧
    (∀ src, b.enq src = .done b' data slots →
      b'.contents = b.contents ++ src.take (b.cap.toNat - b.contents.length)) ∧
    (∀ n : BitVec 24, b.enqd n = .done b' data slots →
      b'.contents =
        b.contents ++ List.replicate (min n.toNat (b.cap.toNat - b.contents.length)) 0x00000000) ∧
    (∀ raw, b.enqb raw = .done b' data slots →
      b'.contents = b.contents ++ (wordsOfBytes raw).take (b.cap.toNat - b.contents.length)) ∧
    (∀ (d : BitVec 24) (z : Bool), b.deq fill d z = .done b' data slots →
      b'.contents = b.contents.drop d.toNat ∧
      slots.take b.contents.length = (b.contents.take d.toNat).map .write ∧
      slots.length = d.toNat) ∧
    (∀ a, b.rdreg a = .done b' data slots → b'.contents = b.contents)

/-- R22: no command result depends on the unspecified contents of the storage. From two states that differ in
nothing but which arbitrary contents stand behind the slots no command wrote, a step answers the same commands with
the same responses, and leaves states that differ in nothing else. -/
def Obligations.UnspecifiedStorageIsNeverObserved : Prop :=
  ∀ (s t : State) (d : Nat), s.Inv → step s = .next t →
    ∃ t' d', step { s with block := s.block.withDraw d } = .next t' ∧
      t' = { t with block := t.block.withDraw d' }

/-- R247: between a producer's two commands only dequeues and reads of other ports can run, and none decreases
FREE; between a consumer's two, only enqueues and reads, and none decreases COUNT. -/
def Obligations.ForeseeableDrops : Prop :=
  ∀ (i : Instr) (s t : State), s.Inv → exec i s = .next t →
    (i.opcode = .deq ∨ i.opcode = .rdreg → s.block.free ≤ t.block.free) ∧
    (i.opcode = .enq ∨ i.opcode = .enqd ∨ i.opcode = .enqb ∨ i.opcode = .rdreg →
      s.block.count.toNat ≤ t.block.count.toNat)

/-! ### Every value of the parameter AW (R8) -/

/-- R8: the model takes AW as an argument. The machine of this hardware, with its `exec`, `step` and reset, is the one at
AW = 24. -/
def Obligations.ThisHardwareIsTheMachineAtItsAw : Prop :=
  (∀ (i : Instr) (s : State), exec i s = execAt i s) ∧ (∀ s : State, step s = s.advance) ∧
  State.reset = State.resetAt 24 ∧ Sys2Proof.core = machineAt 24

/-- R202 and R204, for every AW: a step that grants a port's transaction answers it with the first error that applies, a
requested capacity being out of range above 2^AW, and a transaction that fails changes nothing of the block but
LASTERR. -/
def Obligations.ErrorsAtEveryAw : Prop :=
  ∀ (aw : Nat) (s : State aw) (p : Port) (c : Command) (es : List Event),
    s.events = .grant p :: es → (s.port p).outstanding = some c →
    ∃ t r dst, s.advance = .next t ∧ t.log = s.log ++ [⟨p, c, r, dst⟩] ∧
      (r.code ≠ .ok →
        r.data = 0 ∧ r.slots = [] ∧ dst = c.dest ∧ t.block = { s.block with lasterr := r.code }) ∧
      r.code =
        match decode c.word c.payload with
        | .error _ => .errIllegal
        | .ok i =>
          if permitted i.opcode p = false then .errPort
          else
            match i with
            | .cfgr v => if v = 0 then .errCfg else if 2 ^ aw < v.toNat then .errRange else .ok
            | .cfga ch sr bt =>
              if ch = 0 ∨ sr = 0 ∨ bt = 0 then .errCfg
              else if 2 ^ aw < ch.toNat * sr.toNat * bt.toNat then .errRange
              else .ok
            | .enq _ => if s.block.cfgd then .ok else .errUnconf
            | .enqd _ => if s.block.cfgd then .ok else .errUnconf
            | .enqb _ => if s.block.cfgd then .ok else .errUnconf
            | .deq _ _ => if s.block.cfgd then .ok else .errUnconf
            | .rdreg _ => .ok

/-- For every AW of 0 to 31: the invariant of the machine holds at reset, and every step keeps it. -/
def Obligations.EveryStepKeepsTheInvariantAtEveryAw : Prop :=
  ∀ aw : Nat, aw ≤ 31 →
    (State.resetAt aw).Inv ∧ ∀ s t : State aw, s.Inv → s.advance = .next t → t.Inv
end

