-- ==== Sys2Proof/Laws/Decode.lean ====
section
/-! SUPPORT. Laws/Decode.lean: the fields of an encoded command word, and payloads read back. -/

namespace Sys2Proof

@[simp] theorem opField_commandWord (op : Opcode) (z : Bool) (low : BitVec 24) :
    opField (commandWord op z low) = op.bits := by
  apply BitVec.eq_of_getLsbD_eq
  intro i hi
  simp only [opField, commandWord, BitVec.getLsbD_extractLsb', BitVec.getLsbD_or, BitVec.getLsbD_shiftLeft,
    BitVec.getLsbD_setWidth]
  have h1 : ¬ 28 + i < 28 := by omega
  have h2 : ¬ 28 + i < 24 := by omega
  have h3 : 28 + i < 32 := by omega
  have h4 : low.getLsbD (28 + i) = false := BitVec.getLsbD_of_ge _ _ (by omega)
  have h5 : (BitVec.ofBool z).getLsbD (28 + i - 24) = false := BitVec.getLsbD_of_ge _ _ (by omega)
  have h6 : i < 32 := by omega
  simp [h2, h3, h4, h5, h6, hi]

@[simp] theorem zField_commandWord (op : Opcode) (z : Bool) (low : BitVec 24) :
    zField (commandWord op z low) = z := by
  have h4 : low.getLsbD 24 = false := BitVec.getLsbD_of_ge _ _ (by omega)
  simp only [zField, commandWord, BitVec.getLsbD_or, BitVec.getLsbD_shiftLeft, BitVec.getLsbD_setWidth, h4]
  cases z <;> simp

@[simp] theorem lenField_commandWord (op : Opcode) (z : Bool) (low : BitVec 24) :
    lenField (commandWord op z low) = low := by
  apply BitVec.eq_of_getLsbD_eq
  intro i hi
  simp only [lenField, commandWord, BitVec.getLsbD_extractLsb', BitVec.getLsbD_or, BitVec.getLsbD_shiftLeft,
    BitVec.getLsbD_setWidth]
  have h1 : i < 28 := by omega
  have h2 : i < 32 := by omega
  simp [h1, h2, hi]

theorem wordsOf_map (ws : List Word) : wordsOf (ws.map .word) = some ws := by
  induction ws with
  | nil => rfl
  | cons w ws ih => simp [wordsOf, ih]

theorem bytesOf_map (bs : List Byte) : bytesOf (bs.map .byte) = some bs := by
  induction bs with
  | nil => rfl
  | cons b bs ih => simp [bytesOf, ih]

theorem wordsOf_eq_some {es : List Elem} {ws : List Word} : wordsOf es = some ws ↔ es = ws.map .word := by
  constructor
  · intro h
    induction es generalizing ws with
    | nil => cases h; rfl
    | cons e es ih =>
      cases e with
      | byte b => cases h
      | word w =>
        simp only [wordsOf, Option.map_eq_some_iff] at h
        obtain ⟨vs, hv, rfl⟩ := h
        simp [ih hv]
  · rintro rfl; exact wordsOf_map ws

theorem bytesOf_eq_some {es : List Elem} {bs : List Byte} : bytesOf es = some bs ↔ es = bs.map .byte := by
  constructor
  · intro h
    induction es generalizing bs with
    | nil => cases h; rfl
    | cons e es ih =>
      cases e with
      | word w => cases h
      | byte b =>
        simp only [bytesOf, Option.map_eq_some_iff] at h
        obtain ⟨vs, hv, rfl⟩ := h
        simp [ih hv]
  · rintro rfl; exact bytesOf_map bs

theorem opcodeOf_bits (op : Opcode) : opcodeOf op.bits = some op := by cases op <;> rfl

theorem opcodeOf_eq_some {x : BitVec 4} {op : Opcode} : opcodeOf x = some op ↔ x = op.bits := by
  constructor
  · intro h
    have := List.find?_some h
    exact (beq_iff_eq.1 this).symm
  · rintro rfl; exact opcodeOf_bits op

theorem regOf_addr (a : Reg) : regOf a.addr = some a := by cases a <;> rfl

theorem regOf_eq_some {x : BitVec 8} {a : Reg} : regOf x = some a ↔ x = a.addr := by
  constructor
  · intro h
    have := List.find?_some h
    exact (beq_iff_eq.1 this).symm
  · rintro rfl; exact regOf_addr a

/-- Everything `decode` checks, of a transaction it accepts. -/
theorem decode_ok {w : Word} {payload : List Elem} {i : Instr} (h : decode w payload = .ok i) :
    ∃ op, opcodeOf (opField w) = some op ∧ reservedZero op w = true ∧
      (op = .rdreg → (regOf (raddrField w)).isSome) ∧ payload.length = payloadLength op w ∧
      operands op w payload = some i := by
  unfold decode at h
  split at h
  · cases h
  · next op hop =>
    split at h
    · cases h
    · next h1 =>
      split at h
      · cases h
      · next h2 =>
        split at h
        · cases h
        · next h3 =>
          split at h
          · next j hj =>
            cases h
            refine ⟨op, hop, by simpa using h1, ?_, by simpa using h3, hj⟩
            rintro rfl
            simpa [Option.isSome_iff_ne_none] using h2
          · cases h

end Sys2Proof
end

