-- ==== Sys2Proof/Laws/State.lean ====
section
/-! SUPPORT. Laws/State.lean: one lemma per field per update, so that no proof unfolds a record update. -/

namespace Sys2Proof.Machine

variable {aw : Nat}

/-! ### Enqueue -/

@[simp] theorem Block.push_cfgd (b : Block aw) (ws : List Word) : (b.push ws).cfgd = b.cfgd := rfl

@[simp] theorem Block.push_mode (b : Block aw) (ws : List Word) : (b.push ws).mode = b.mode := rfl

@[simp] theorem Block.push_cap (b : Block aw) (ws : List Word) : (b.push ws).cap = b.cap := rfl

@[simp] theorem Block.push_stor (b : Block aw) (ws : List Word) : (b.push ws).stor = b.stor.writeRing b.cap.toNat b.tail.toNat ws := rfl

@[simp] theorem Block.push_draw (b : Block aw) (ws : List Word) : (b.push ws).draw = b.draw := rfl

@[simp] theorem Block.push_head (b : Block aw) (ws : List Word) : (b.push ws).head = b.head := rfl

@[simp] theorem Block.push_tail (b : Block aw) (ws : List Word) : (b.push ws).tail = BitVec.ofNat aw ((b.tail.toNat + ws.length) % b.cap.toNat) := rfl

@[simp] theorem Block.push_count (b : Block aw) (ws : List Word) : (b.push ws).count = BitVec.ofNat (aw + 1) (b.count.toNat + ws.length) := rfl

@[simp] theorem Block.push_channels (b : Block aw) (ws : List Word) : (b.push ws).channels = b.channels := rfl

@[simp] theorem Block.push_rate (b : Block aw) (ws : List Word) : (b.push ws).rate = b.rate := rfl

@[simp] theorem Block.push_buftime (b : Block aw) (ws : List Word) : (b.push ws).buftime = b.buftime := rfl

@[simp] theorem Block.push_reqcap (b : Block aw) (ws : List Word) : (b.push ws).reqcap = b.reqcap := rfl

@[simp] theorem Block.push_lasterr (b : Block aw) (ws : List Word) : (b.push ws).lasterr = b.lasterr := rfl

/-! ### Dequeue -/

@[simp] theorem Block.pop_cfgd (b : Block aw) (n : Nat) : (b.pop n).cfgd = b.cfgd := rfl

@[simp] theorem Block.pop_mode (b : Block aw) (n : Nat) : (b.pop n).mode = b.mode := rfl

@[simp] theorem Block.pop_cap (b : Block aw) (n : Nat) : (b.pop n).cap = b.cap := rfl

@[simp] theorem Block.pop_stor (b : Block aw) (n : Nat) : (b.pop n).stor = b.stor := rfl

@[simp] theorem Block.pop_draw (b : Block aw) (n : Nat) : (b.pop n).draw = b.draw := rfl

@[simp] theorem Block.pop_head (b : Block aw) (n : Nat) : (b.pop n).head = BitVec.ofNat aw ((b.head.toNat + n) % b.cap.toNat) := rfl

@[simp] theorem Block.pop_tail (b : Block aw) (n : Nat) : (b.pop n).tail = b.tail := rfl

@[simp] theorem Block.pop_count (b : Block aw) (n : Nat) : (b.pop n).count = BitVec.ofNat (aw + 1) (b.count.toNat - n) := rfl

@[simp] theorem Block.pop_channels (b : Block aw) (n : Nat) : (b.pop n).channels = b.channels := rfl

@[simp] theorem Block.pop_rate (b : Block aw) (n : Nat) : (b.pop n).rate = b.rate := rfl

@[simp] theorem Block.pop_buftime (b : Block aw) (n : Nat) : (b.pop n).buftime = b.buftime := rfl

@[simp] theorem Block.pop_reqcap (b : Block aw) (n : Nat) : (b.pop n).reqcap = b.reqcap := rfl

@[simp] theorem Block.pop_lasterr (b : Block aw) (n : Nat) : (b.pop n).lasterr = b.lasterr := rfl

/-! ### Configuration -/

@[simp] theorem Block.configure_cfgd (b : Block aw) (mode : Mode) (p : Nat) (ch sr bt : Word) : (b.configure mode p ch sr bt).cfgd = true := rfl

@[simp] theorem Block.configure_mode (b : Block aw) (mode : Mode) (p : Nat) (ch sr bt : Word) : (b.configure mode p ch sr bt).mode = mode := rfl

@[simp] theorem Block.configure_cap (b : Block aw) (mode : Mode) (p : Nat) (ch sr bt : Word) : (b.configure mode p ch sr bt).cap = BitVec.ofNat (aw + 1) (nextPow2 p) := rfl

@[simp] theorem Block.configure_stor (b : Block aw) (mode : Mode) (p : Nat) (ch sr bt : Word) : (b.configure mode p ch sr bt).stor = [] := rfl

@[simp] theorem Block.configure_draw (b : Block aw) (mode : Mode) (p : Nat) (ch sr bt : Word) : (b.configure mode p ch sr bt).draw = b.draw + 1 := rfl

@[simp] theorem Block.configure_head (b : Block aw) (mode : Mode) (p : Nat) (ch sr bt : Word) : (b.configure mode p ch sr bt).head = 0 := rfl

@[simp] theorem Block.configure_tail (b : Block aw) (mode : Mode) (p : Nat) (ch sr bt : Word) : (b.configure mode p ch sr bt).tail = 0 := rfl

@[simp] theorem Block.configure_count (b : Block aw) (mode : Mode) (p : Nat) (ch sr bt : Word) : (b.configure mode p ch sr bt).count = 0 := rfl

@[simp] theorem Block.configure_channels (b : Block aw) (mode : Mode) (p : Nat) (ch sr bt : Word) : (b.configure mode p ch sr bt).channels = ch := rfl

@[simp] theorem Block.configure_rate (b : Block aw) (mode : Mode) (p : Nat) (ch sr bt : Word) : (b.configure mode p ch sr bt).rate = sr := rfl

@[simp] theorem Block.configure_buftime (b : Block aw) (mode : Mode) (p : Nat) (ch sr bt : Word) : (b.configure mode p ch sr bt).buftime = bt := rfl

@[simp] theorem Block.configure_reqcap (b : Block aw) (mode : Mode) (p : Nat) (ch sr bt : Word) : (b.configure mode p ch sr bt).reqcap = BitVec.ofNat 32 p := rfl

@[simp] theorem Block.configure_lasterr (b : Block aw) (mode : Mode) (p : Nat) (ch sr bt : Word) : (b.configure mode p ch sr bt).lasterr = b.lasterr := rfl

/-! ### Hardware reset of the block -/

@[simp] theorem Block.reset_cfgd (draw : Nat) : (Block.reset aw draw).cfgd = false := rfl

@[simp] theorem Block.reset_mode (draw : Nat) : (Block.reset aw draw).mode = .ring := rfl

@[simp] theorem Block.reset_cap (draw : Nat) : (Block.reset aw draw).cap = 0 := rfl

@[simp] theorem Block.reset_stor (draw : Nat) : (Block.reset aw draw).stor = [] := rfl

@[simp] theorem Block.reset_draw (draw : Nat) : (Block.reset aw draw).draw = draw := rfl

@[simp] theorem Block.reset_head (draw : Nat) : (Block.reset aw draw).head = 0 := rfl

@[simp] theorem Block.reset_tail (draw : Nat) : (Block.reset aw draw).tail = 0 := rfl

@[simp] theorem Block.reset_count (draw : Nat) : (Block.reset aw draw).count = 0 := rfl

@[simp] theorem Block.reset_channels (draw : Nat) : (Block.reset aw draw).channels = 0 := rfl

@[simp] theorem Block.reset_rate (draw : Nat) : (Block.reset aw draw).rate = 0 := rfl

@[simp] theorem Block.reset_buftime (draw : Nat) : (Block.reset aw draw).buftime = 0 := rfl

@[simp] theorem Block.reset_reqcap (draw : Nat) : (Block.reset aw draw).reqcap = 0 := rfl

@[simp] theorem Block.reset_lasterr (draw : Nat) : (Block.reset aw draw).lasterr = .ok := rfl

/-! ### Another draw -/

@[simp] theorem Block.withDraw_cfgd (b : Block aw) (d : Nat) : (b.withDraw d).cfgd = b.cfgd := rfl

@[simp] theorem Block.withDraw_mode (b : Block aw) (d : Nat) : (b.withDraw d).mode = b.mode := rfl

@[simp] theorem Block.withDraw_cap (b : Block aw) (d : Nat) : (b.withDraw d).cap = b.cap := rfl

@[simp] theorem Block.withDraw_stor (b : Block aw) (d : Nat) : (b.withDraw d).stor = b.stor := rfl

@[simp] theorem Block.withDraw_draw (b : Block aw) (d : Nat) : (b.withDraw d).draw = d := rfl

@[simp] theorem Block.withDraw_head (b : Block aw) (d : Nat) : (b.withDraw d).head = b.head := rfl

@[simp] theorem Block.withDraw_tail (b : Block aw) (d : Nat) : (b.withDraw d).tail = b.tail := rfl

@[simp] theorem Block.withDraw_count (b : Block aw) (d : Nat) : (b.withDraw d).count = b.count := rfl

@[simp] theorem Block.withDraw_channels (b : Block aw) (d : Nat) : (b.withDraw d).channels = b.channels := rfl

@[simp] theorem Block.withDraw_rate (b : Block aw) (d : Nat) : (b.withDraw d).rate = b.rate := rfl

@[simp] theorem Block.withDraw_buftime (b : Block aw) (d : Nat) : (b.withDraw d).buftime = b.buftime := rfl

@[simp] theorem Block.withDraw_reqcap (b : Block aw) (d : Nat) : (b.withDraw d).reqcap = b.reqcap := rfl

@[simp] theorem Block.withDraw_lasterr (b : Block aw) (d : Nat) : (b.withDraw d).lasterr = b.lasterr := rfl

/-! ### Answering -/

@[simp] theorem State.answer_block (s : State aw) (r : Response) : (s.answer r).block = s.block := rfl

@[simp] theorem State.answer_host (s : State aw) (r : Response) : (s.answer r).host = s.host := rfl

@[simp] theorem State.answer_producer (s : State aw) (r : Response) : (s.answer r).producer = s.producer := rfl

@[simp] theorem State.answer_consumer (s : State aw) (r : Response) : (s.answer r).consumer = s.consumer := rfl

@[simp] theorem State.answer_granted (s : State aw) (r : Response) : (s.answer r).granted = s.granted := rfl

@[simp] theorem State.answer_events (s : State aw) (r : Response) : (s.answer r).events = s.events := rfl

@[simp] theorem State.answer_choices (s : State aw) (r : Response) : (s.answer r).choices = s.choices := rfl

@[simp] theorem State.answer_log (s : State aw) (r : Response) : (s.answer r).log = s.logWith r (applySlots s.granted.command.dest r.slots) := rfl

/-! ### Success -/

@[simp] theorem State.respond_block (s : State aw) (b : Block aw) (data : Word) (slots : List Slot) : (s.respond b data slots).block = b := rfl

@[simp] theorem State.respond_host (s : State aw) (b : Block aw) (data : Word) (slots : List Slot) : (s.respond b data slots).host = s.host := rfl

@[simp] theorem State.respond_producer (s : State aw) (b : Block aw) (data : Word) (slots : List Slot) : (s.respond b data slots).producer = s.producer := rfl

@[simp] theorem State.respond_consumer (s : State aw) (b : Block aw) (data : Word) (slots : List Slot) : (s.respond b data slots).consumer = s.consumer := rfl

@[simp] theorem State.respond_granted (s : State aw) (b : Block aw) (data : Word) (slots : List Slot) : (s.respond b data slots).granted = s.granted := rfl

@[simp] theorem State.respond_events (s : State aw) (b : Block aw) (data : Word) (slots : List Slot) : (s.respond b data slots).events = s.events := rfl

@[simp] theorem State.respond_choices (s : State aw) (b : Block aw) (data : Word) (slots : List Slot) : (s.respond b data slots).choices = s.choices := rfl

@[simp] theorem State.respond_log (s : State aw) (b : Block aw) (data : Word) (slots : List Slot) : (s.respond b data slots).log = s.logWith ⟨.ok, data, slots⟩ (applySlots s.granted.command.dest slots) := rfl

/-! ### Failure -/

@[simp] theorem State.raise_block (s : State aw) (code : Code) : (s.raise code).block = { s.block with lasterr := code } := rfl

@[simp] theorem State.raise_host (s : State aw) (code : Code) : (s.raise code).host = s.host := rfl

@[simp] theorem State.raise_producer (s : State aw) (code : Code) : (s.raise code).producer = s.producer := rfl

@[simp] theorem State.raise_consumer (s : State aw) (code : Code) : (s.raise code).consumer = s.consumer := rfl

@[simp] theorem State.raise_granted (s : State aw) (code : Code) : (s.raise code).granted = s.granted := rfl

@[simp] theorem State.raise_events (s : State aw) (code : Code) : (s.raise code).events = s.events := rfl

@[simp] theorem State.raise_choices (s : State aw) (code : Code) : (s.raise code).choices = s.choices := rfl

@[simp] theorem State.raise_log (s : State aw) (code : Code) : (s.raise code).log = s.logWith ⟨code, 0, []⟩ (applySlots s.granted.command.dest []) := rfl

/-! ### Hardware reset -/

@[simp] theorem State.hardReset_block (s : State aw) : (s.hardReset).block = Block.reset aw (s.block.draw + 1) := rfl

@[simp] theorem State.hardReset_host (s : State aw) : (s.hardReset).host = s.host.afterReset := rfl

@[simp] theorem State.hardReset_producer (s : State aw) : (s.hardReset).producer = s.producer.afterReset := rfl

@[simp] theorem State.hardReset_consumer (s : State aw) : (s.hardReset).consumer = s.consumer.afterReset := rfl

@[simp] theorem State.hardReset_granted (s : State aw) : (s.hardReset).granted = s.granted := rfl

@[simp] theorem State.hardReset_events (s : State aw) : (s.hardReset).events = s.events := rfl

@[simp] theorem State.hardReset_choices (s : State aw) : (s.hardReset).choices = s.choices := rfl

@[simp] theorem State.hardReset_log (s : State aw) : (s.hardReset).log = s.log := rfl

/-! ### Ports -/

@[simp] theorem State.setPort_block (s : State aw) (p : Port) (ps : PortState) :
    (s.setPort p ps).block = s.block := by cases p <;> rfl

@[simp] theorem State.setPort_granted (s : State aw) (p : Port) (ps : PortState) :
    (s.setPort p ps).granted = s.granted := by cases p <;> rfl

@[simp] theorem State.setPort_events (s : State aw) (p : Port) (ps : PortState) :
    (s.setPort p ps).events = s.events := by cases p <;> rfl

@[simp] theorem State.setPort_choices (s : State aw) (p : Port) (ps : PortState) :
    (s.setPort p ps).choices = s.choices := by cases p <;> rfl

@[simp] theorem State.setPort_log (s : State aw) (p : Port) (ps : PortState) :
    (s.setPort p ps).log = s.log := by cases p <;> rfl

@[simp] theorem State.setPort_port (s : State aw) (p q : Port) (ps : PortState) :
    (s.setPort p ps).port q = if q = p then ps else s.port q := by cases p <;> cases q <;> rfl

theorem State.port_host (s : State aw) : s.port .host = s.host := rfl

theorem State.port_producer (s : State aw) : s.port .producer = s.producer := rfl

theorem State.port_consumer (s : State aw) : s.port .consumer = s.consumer := rfl

@[simp] theorem State.accept_block (s : State aw) (p : Port) (c : Command) :
    (s.accept p c).block = s.block := by cases p <;> rfl

@[simp] theorem State.accept_events (s : State aw) (p : Port) (c : Command) :
    (s.accept p c).events = s.events := by cases p <;> rfl

@[simp] theorem State.accept_choices (s : State aw) (p : Port) (c : Command) :
    (s.accept p c).choices = s.choices := by cases p <;> rfl

@[simp] theorem State.accept_log (s : State aw) (p : Port) (c : Command) :
    (s.accept p c).log = s.log := by cases p <;> rfl

@[simp] theorem State.accept_granted (s : State aw) (p : Port) (c : Command) :
    (s.accept p c).granted = ⟨p, c⟩ := rfl

@[simp] theorem State.accept_port (s : State aw) (p q : Port) (c : Command) :
    (s.accept p c).port q = if q = p then ⟨none, (s.port p).upcoming⟩ else s.port q := by
  cases p <;> cases q <;> rfl

/-! ### Reset -/

@[simp] theorem State.reset_eq : State.reset = State.resetAt Config.aw := rfl

@[simp] theorem State.resetAt_block : (State.resetAt aw).block = Block.reset aw 0 := rfl

@[simp] theorem State.resetAt_host : (State.resetAt aw).host = .idle := rfl

@[simp] theorem State.resetAt_producer : (State.resetAt aw).producer = .idle := rfl

@[simp] theorem State.resetAt_consumer : (State.resetAt aw).consumer = .idle := rfl

@[simp] theorem State.resetAt_granted : (State.resetAt aw).granted = ⟨.host, ⟨0, [], []⟩⟩ := rfl

@[simp] theorem State.resetAt_events : (State.resetAt aw).events = [] := rfl

@[simp] theorem State.resetAt_choices : (State.resetAt aw).choices = 0 := rfl

@[simp] theorem State.resetAt_log : (State.resetAt aw).log = [] := rfl

@[simp] theorem PortState.afterReset_outstanding (ps : PortState) : ps.afterReset.outstanding = none := rfl

@[simp] theorem PortState.afterReset_upcoming (ps : PortState) : ps.afterReset.upcoming = ps.upcoming := rfl

@[simp] theorem State.hardReset_port (s : State aw) (p : Port) : s.hardReset.port p = (s.port p).afterReset := by
  cases p <;> rfl

/-- A failed command leaves the destination as it was, and so does one whose response has no slots. -/
@[simp] theorem applySlots_nil (dst : List Word) : applySlots dst [] = dst := by cases dst <;> rfl

end Sys2Proof.Machine
end

