-- ==== Sys2Proof/Laws/Memory.lean ====
section
/-! SUPPORT. Laws/Memory.lean: reading what was written, leaving the rest alone, and the canonical form. -/

namespace Sys2Proof.Machine

/-! ### One slot -/

@[simp] theorem Memory.read_nil (i : Nat) : Memory.read? [] i = none := rfl

theorem Memory.read_write_same (m : Memory) (i : Nat) (v : Word) : (m.write i v).read? i = some v := by
  induction m with
  | nil => simp [Memory.write, Memory.read?]
  | cons c m ih =>
    obtain ⟨a, w⟩ := c
    simp only [Memory.write]
    split
    · simp [Memory.read?]
    · split
      · simp [Memory.read?]
      · next h => simp [Memory.read?, h, ih]

theorem Memory.read_write_other (m : Memory) {i j : Nat} (v : Word) (h : j ≠ i) :
    (m.write i v).read? j = m.read? j := by
  induction m with
  | nil => simp [Memory.write, Memory.read?, h]
  | cons c m ih =>
    obtain ⟨a, w⟩ := c
    simp only [Memory.write]
    split
    · simp [Memory.read?, h]
    · split
      · next h' => subst h'; simp [Memory.read?, h]
      · simp only [Memory.read?, ih]

theorem Memory.mem_write {m : Memory} {i : Nat} {v : Word} {c : Nat × Word} (h : c ∈ m.write i v) :
    c = (i, v) ∨ c ∈ m := by
  induction m with
  | nil => simpa [Memory.write] using h
  | cons d m ih =>
    obtain ⟨a, w⟩ := d
    simp only [Memory.write] at h
    split at h
    · simpa using h
    · split at h
      · rcases List.mem_cons.1 h with h | h
        · exact .inl h
        · exact .inr (List.mem_cons_of_mem _ h)
      · rcases List.mem_cons.1 h with h | h
        · exact .inr (h ▸ List.mem_cons_self)
        · rcases ih h with h | h
          · exact .inl h
          · exact .inr (List.mem_cons_of_mem _ h)

/-! ### The canonical form -/

theorem Memory.wf_cons {a : Nat} {w : Word} {m : Memory} (h : Memory.wf ((a, w) :: m) = true) :
    m.wf = true := by
  cases m with
  | nil => rfl
  | cons c m => simp only [Memory.wf, Bool.and_eq_true] at h; exact h.2

/-- The form as the order of the indices. -/
theorem Memory.wf_iff (m : Memory) : m.wf = true ↔ (m.map Prod.fst).Pairwise (· < ·) := by
  induction m with
  | nil => simp [Memory.wf]
  | cons c m ih =>
    cases m with
    | nil => simp [Memory.wf]
    | cons d m =>
      rw [Memory.wf, Bool.and_eq_true, ih, decide_eq_true_eq]
      simp only [List.map_cons, List.pairwise_cons, List.mem_cons, forall_eq_or_imp]
      constructor
      · rintro ⟨h, h1, h2⟩
        exact ⟨⟨h, fun x hx => h.trans (h1 x hx)⟩, h1, h2⟩
      · rintro ⟨⟨h, -⟩, h1, h2⟩
        exact ⟨h, h1, h2⟩

/-- A write keeps the canonical form. -/
theorem Memory.write_wf {m : Memory} (i : Nat) (v : Word) (h : m.wf = true) : (m.write i v).wf = true := by
  rw [Memory.wf_iff] at h ⊢
  induction m with
  | nil => simp [Memory.write]
  | cons c m ih =>
    obtain ⟨a, w⟩ := c
    simp only [List.map_cons, List.pairwise_cons] at h
    simp only [Memory.write]
    split
    · next hi =>
      simp only [List.map_cons, List.pairwise_cons, List.mem_cons, forall_eq_or_imp]
      exact ⟨⟨hi, fun x hx => hi.trans (h.1 x hx)⟩, h⟩
    · split
      · next hi => subst hi; simpa using h
      · next h1 h2 =>
        simp only [List.map_cons, List.pairwise_cons]
        refine ⟨?_, ih h.2⟩
        intro x hx
        obtain ⟨c, hc, rfl⟩ := List.mem_map.1 hx
        rcases Memory.mem_write hc with rfl | hc
        · simp only; omega
        · exact h.1 _ (List.mem_map_of_mem hc)

/-- A run of writes keeps the canonical form. -/
theorem Memory.writeRing_wf (cap : Nat) (ws : List Word) : ∀ (k : Nat) (m : Memory), m.wf = true →
    (m.writeRing cap k ws).wf = true := by
  induction ws with
  | nil => intro k m h; exact h
  | cons w ws ih => intro k m h; exact ih _ _ (Memory.write_wf _ _ h)

/-! ### A run of slots around the ring -/

theorem Memory.read_writeRing_miss (cap : Nat) (ws : List Word) : ∀ (k : Nat) (m : Memory) (j : Nat),
    (∀ i, i < ws.length → j ≠ (k + i) % cap) → (m.writeRing cap k ws).read? j = m.read? j := by
  induction ws with
  | nil => intro k m j _; rfl
  | cons w ws ih =>
    intro k m j h
    rw [Memory.writeRing, ih _ _ _ (fun i hi => by
      have := h (i + 1) (by simpa using hi)
      rwa [show k + (i + 1) = k + 1 + i by omega] at this)]
    exact Memory.read_write_other _ _ (by simpa using h 0 (by simp))

/-- Two places of one run of at most `cap` slots are different slots. -/
theorem ring_injective {cap k i j : Nat} (hi : i < cap) (hj : j < cap) (h : (k + i) % cap = (k + j) % cap) :
    i = j := by
  have h' : i ≡ j [MOD cap] := Nat.ModEq.add_left_cancel' k h
  exact Nat.ModEq.eq_of_lt_of_lt h' hi hj

theorem Memory.read_writeRing_hit (cap : Nat) (ws : List Word) : ∀ (k : Nat) (m : Memory) (i : Nat)
    (_ : ws.length ≤ cap) (hi : i < ws.length), (m.writeRing cap k ws).read? ((k + i) % cap) = some ws[i] := by
  induction ws with
  | nil => intro k m i _ hi; simp at hi
  | cons w ws ih =>
    intro k m i hlen hi
    simp only [List.length_cons] at hlen hi
    rw [Memory.writeRing]
    cases i with
    | zero =>
      rw [Memory.read_writeRing_miss]
      · simpa using Memory.read_write_same _ _ _
      · intro j hj h
        have := ring_injective (cap := cap) (k := k) (i := 0) (j := j + 1) (by omega) (by omega)
          (by rwa [show k + (j + 1) = k + 1 + j by omega])
        omega
    | succ i =>
      have := ih (k + 1) (m.write (k % cap) w) i (by omega) (by omega)
      rw [show k + (i + 1) = k + 1 + i by omega, this]
      rfl

theorem Memory.mem_writeRing (cap : Nat) (ws : List Word) : ∀ (k : Nat) (m : Memory) (c : Nat × Word),
    c ∈ m.writeRing cap k ws → c ∈ m ∨ ∃ i, i < ws.length ∧ c.1 = (k + i) % cap := by
  induction ws with
  | nil => intro k m c h; exact .inl h
  | cons w ws ih =>
    intro k m c h
    rcases ih _ _ _ h with h | ⟨i, hi, h⟩
    · rcases Memory.mem_write h with rfl | h
      · exact .inr ⟨0, by simp, by simp⟩
      · exact .inl h
    · exact .inr ⟨i + 1, by simpa using hi, by rw [h]; congr 1; omega⟩

variable {aw : Nat}

@[simp] theorem Block.readRing_length (b : Block aw) (n : Nat) : ∀ k, (b.readRing k n).length = n := by
  induction n with
  | zero => intro k; rfl
  | succ n ih => intro k; simp [Block.readRing, ih]

theorem Block.readRing_getElem (b : Block aw) (n : Nat) : ∀ (k i : Nat) (h : i < (b.readRing k n).length),
    (b.readRing k n)[i] = b.readSlot ((k + i) % b.cap.toNat) := by
  induction n with
  | zero => intro k i h; simp [Block.readRing] at h
  | succ n ih =>
    intro k i h
    cases i with
    | zero => simp [Block.readRing]
    | succ i =>
      simp only [Block.readRing, List.getElem_cons_succ]
      rw [ih, show k + (i + 1) = k + 1 + i by omega]

theorem Block.readRing_append (b : Block aw) (k m n : Nat) :
    b.readRing k (m + n) = b.readRing k m ++ b.readRing (k + m) n := by
  apply List.ext_getElem
  · simp
  · intro i h1 h2
    rw [Block.readRing_getElem, List.getElem_append]
    split
    · rw [Block.readRing_getElem]
    · next h =>
      rw [Block.readRing_getElem]
      simp only [Block.readRing_length] at h ⊢
      rw [show k + m + (i - m) = k + i by omega]

/-- A run from a cursor that has wrapped is the run from where it would stand unwrapped. -/
theorem Block.readRing_mod (b : Block aw) (k n : Nat) : b.readRing (k % b.cap.toNat) n = b.readRing k n := by
  apply List.ext_getElem
  · simp
  · intro i h1 h2
    simp [Block.readRing_getElem]

end Sys2Proof.Machine
end

