-- ==== Sys2Proof/Laws/Ops.lean ====
section
/-! SUPPORT. Laws/Ops.lean: what each shared operation can do, said once. -/

namespace Sys2Proof.Machine

variable {aw : Nat}

/-! ### The answer to a command -/

/-- A permitted command answers a next state: its effect's block, or a failure. -/
theorem State.command_permitted {s : State aw} {op : Opcode} (f : Block aw → Effect aw)
    (h : permitted op s.granted.port = true) :
    s.command op f =
      match f s.block with
      | .done b data slots => .next (s.respond b data slots)
      | .fail code => .next (s.raise code) := by
  exact if_pos h

/-- A command on a port that may not issue it fails with ERR_PORT. -/
theorem State.command_wrongPort {s : State aw} {op : Opcode} (f : Block aw → Effect aw)
    (h : permitted op s.granted.port = false) : s.command op f = .next (s.raise .errPort) := by
  simp [State.command, h]

/-- Everything `State.command` can do. -/
theorem State.command_cases {s t : State aw} {op : Opcode} {f : Block aw → Effect aw}
    (h : s.command op f = .next t) :
    (permitted op s.granted.port = true ∧ ∃ b data slots, f s.block = .done b data slots ∧
      t = s.respond b data slots) ∨
    (permitted op s.granted.port = true ∧ ∃ code, f s.block = .fail code ∧ t = s.raise code) ∨
    (permitted op s.granted.port = false ∧ t = s.raise .errPort) := by
  cases hp : permitted op s.granted.port with
  | false =>
    rw [State.command_wrongPort f hp] at h
    cases h
    exact .inr (.inr ⟨rfl, rfl⟩)
  | true =>
    rw [State.command_permitted f hp] at h
    cases hf : f s.block with
    | done b data slots =>
      rw [hf] at h
      cases h
      exact .inl ⟨rfl, b, data, slots, rfl, rfl⟩
    | fail code =>
      rw [hf] at h
      cases h
      exact .inr (.inl ⟨rfl, code, rfl, rfl⟩)

/-- The effect of a command on the block. -/
def effectOf (i : Instr) (b : Block aw) : Effect aw :=
  match i with
  | .cfgr r => b.cfgr r
  | .cfga ch sr bt => b.cfga ch sr bt
  | .enq src => b.enq src
  | .enqd n => b.enqd n
  | .enqb raw => b.enqb raw
  | .deq d z => b.deq Config.partialUnderrunFill d z
  | .rdreg a => b.rdreg a

/-- Every meaning is its effect on the block under the one operation that answers commands. -/
theorem execAt_eq_command (i : Instr) (s : State aw) : execAt i s = s.command i.opcode (effectOf i) := by
  cases i <;> rfl

/-- Every command, in every state, answers a next state. -/
theorem execAt_next (i : Instr) (s : State aw) : ∃ t, execAt i s = .next t := by
  rw [execAt_eq_command]
  unfold State.command
  split
  · split <;> exact ⟨_, rfl⟩
  · exact ⟨_, rfl⟩

/-- What a permitted, successful command answers. -/
theorem execAt_done {i : Instr} {s : State aw} {b : Block aw} {data : Word} {slots : List Slot}
    (hp : permitted i.opcode s.granted.port = true) (h : effectOf i s.block = .done b data slots) :
    execAt i s = .next (s.respond b data slots) := by
  rw [execAt_eq_command, State.command_permitted _ hp, h]

/-- What a permitted, failing command answers. -/
theorem execAt_fail {i : Instr} {s : State aw} {code : Code}
    (hp : permitted i.opcode s.granted.port = true) (h : effectOf i s.block = .fail code) :
    execAt i s = .next (s.raise code) := by
  rw [execAt_eq_command, State.command_permitted _ hp, h]

/-- Everything a command can do: succeed, fail of itself, fail for its port. -/
theorem execAt_cases {i : Instr} {s t : State aw} (h : execAt i s = .next t) :
    (permitted i.opcode s.granted.port = true ∧ ∃ b data slots, effectOf i s.block = .done b data slots ∧
      t = s.respond b data slots) ∨
    (permitted i.opcode s.granted.port = true ∧ ∃ code, effectOf i s.block = .fail code ∧ t = s.raise code) ∨
    (permitted i.opcode s.granted.port = false ∧ t = s.raise .errPort) := by
  rw [execAt_eq_command] at h
  exact State.command_cases h

/-! ### What a command can do to the block -/

/-- A successful command configures, buffers words, takes words, or reads. -/
theorem effectOf_done_cases {i : Instr} {b b' : Block aw} {data : Word} {slots : List Slot}
    (h : effectOf i b = .done b' data slots) :
    (∃ mode p ch sr bt, 1 ≤ p ∧ p ≤ 2 ^ aw ∧
      (mode = .ring → ch = 0 ∧ sr = 0 ∧ bt = 0) ∧ (mode = .audio → p = depth ch sr bt) ∧
      (i.opcode = .cfgr ∨ i.opcode = .cfga) ∧
      b' = b.configure mode p ch sr bt ∧ data = 0 ∧ slots = []) ∨
    (b.cfgd = true ∧ (i.opcode = .enq ∨ i.opcode = .enqd ∨ i.opcode = .enqb) ∧
      ∃ ws, ws.length ≤ b.free ∧ b' = b.push ws ∧ data = 0 ∧ slots = []) ∨
    (b.cfgd = true ∧ ∃ d z, i = .deq d z ∧ b' = b.pop (min d.toNat b.count.toNat) ∧ data = 0 ∧
      slots = b.deqSlots Config.partialUnderrunFill d.toNat z) ∨
    (∃ a, i = .rdreg a ∧ b' = b ∧ data = b.register a ∧ slots = []) := by
  cases i with
  | cfgr r =>
    simp only [effectOf, Block.cfgr, Block.construct] at h
    split at h
    · cases h
    · split at h
      · cases h
      · cases h
        refine .inl ⟨.ring, r.toNat, 0, 0, 0, by omega, by omega, fun _ => ⟨rfl, rfl, rfl⟩,
          nofun, .inl rfl, rfl, rfl, rfl⟩
  | cfga ch sr bt =>
    simp only [effectOf, Block.cfga, Block.construct] at h
    split at h
    · cases h
    · split at h
      · cases h
      · split at h
        · cases h
        · cases h
          refine .inl ⟨.audio, depth ch sr bt, ch, sr, bt, by omega, by omega, nofun,
            fun _ => rfl, .inr rfl, rfl, rfl, rfl⟩
  | enq src =>
    simp only [effectOf, Block.enq] at h
    split at h
    · next hc =>
      cases h
      exact .inr (.inl ⟨hc, .inl rfl, _, by simp, rfl, rfl, rfl⟩)
    · cases h
  | enqd n =>
    simp only [effectOf, Block.enqd] at h
    split at h
    · next hc =>
      cases h
      exact .inr (.inl ⟨hc, .inr (.inl rfl), _, by simp, rfl, rfl, rfl⟩)
    · cases h
  | enqb raw =>
    simp only [effectOf, Block.enqb] at h
    split at h
    · next hc =>
      cases h
      exact .inr (.inl ⟨hc, .inr (.inr rfl), _, by simp, rfl, rfl, rfl⟩)
    · cases h
  | deq d z =>
    simp only [effectOf, Block.deq] at h
    split at h
    · next hc =>
      cases h
      exact .inr (.inr (.inl ⟨hc, d, z, rfl, rfl, rfl, rfl⟩))
    · cases h
  | rdreg a =>
    cases h
    exact .inr (.inr (.inr ⟨a, rfl, rfl, rfl, rfl⟩))

/-- The codes a command can fail with of itself (R200). -/
theorem effectOf_fail_cases {i : Instr} {b : Block aw} {code : Code} (h : effectOf i b = .fail code) :
    code = .errCfg ∨ code = .errRange ∨ code = .errUnconf := by
  cases i <;>
    simp only [effectOf, Block.cfgr, Block.cfga, Block.construct, Block.enq, Block.enqd, Block.enqb, Block.deq,
      Block.rdreg] at h <;> (repeat' split at h) <;> cases h <;> simp

/-! ### One step -/

/-- Everything an event can do. -/
theorem State.happen_cases {s t : State aw} {e : Event} (h : s.happen e = .next t) :
    (∃ p, e = .issue p ∧
      (((s.port p).upcoming = [] ∧ t = s) ∨
        ∃ c cs, (s.port p).upcoming = c :: cs ∧ (s.port p).outstanding = none ∧
          t = s.setPort p ⟨some c, cs⟩)) ∨
    (∃ p, e = .grant p ∧
      (((s.port p).outstanding = none ∧ t = s) ∨
        ∃ c, (s.port p).outstanding = some c ∧
          ((∃ i, decode c.word c.payload = .ok i ∧ execAt i (s.accept p c) = .next t) ∨
            (∃ r, decode c.word c.payload = .error r ∧ t = (s.accept p c).raise .errIllegal)))) ∨
    (e = .reset ∧ t = s.hardReset) := by
  cases e with
  | issue p =>
    refine .inl ⟨p, rfl, ?_⟩
    simp only [State.happen, State.issue] at h
    split at h
    · next hu => cases h; exact .inl ⟨hu, rfl⟩
    · next c cs hu =>
      split at h
      · next ho => cases h; exact .inr ⟨c, cs, hu, ho, rfl⟩
      · cases h
  | grant p =>
    refine .inr (.inl ⟨p, rfl, ?_⟩)
    simp only [State.happen] at h
    split at h
    · next ho => cases h; exact .inl ⟨ho, rfl⟩
    · next c ho =>
      refine .inr ⟨c, ho, ?_⟩
      simp only [State.perform] at h
      split at h
      · next i hd => exact .inl ⟨i, hd, h⟩
      · next r hd => cases h; exact .inr ⟨r, hd, rfl⟩
  | reset =>
    cases h
    exact .inr (.inr ⟨rfl, rfl⟩)

theorem choose_mem (k : Nat) (e : Event) (es : List Event) : choose k e es ∈ e :: es := by
  have h : k % (es.length + 1) < (e :: es).length := by
    simpa using Nat.mod_lt k (Nat.succ_pos es.length)
  rw [choose, List.getD_eq_getElem _ _ h]
  exact List.getElem_mem h

/-- What may happen of itself is that some port issues or some port's command is performed. -/
theorem State.mem_enabled {s : State aw} {e : Event} (h : e ∈ s.enabled) :
    (∃ p c, e = .grant p ∧ (s.port p).outstanding = some c) ∨
    (∃ p c cs, e = .issue p ∧ (s.port p).outstanding = none ∧ (s.port p).upcoming = c :: cs) := by
  have key : ∀ p, e ∈ s.enabledAt p →
      (∃ p c, e = .grant p ∧ (s.port p).outstanding = some c) ∨
      (∃ p c cs, e = .issue p ∧ (s.port p).outstanding = none ∧ (s.port p).upcoming = c :: cs) := by
    intro p hp
    unfold State.enabledAt at hp
    split at hp
    · next c hc => exact .inl ⟨p, c, by simpa using hp, hc⟩
    · next ho =>
      split at hp
      · simp at hp
      · next c cs hc => exact .inr ⟨p, c, cs, by simpa using hp, ho, hc⟩
  simp only [State.enabled, List.mem_append] at h
  rcases h with (h | h) | h
  · exact key _ h
  · exact key _ h
  · exact key _ h

/-- Everything a step can do: the next entry of `events`; idling; or an event that is enabled. -/
theorem State.advance_cases {s t : State aw} (h : s.advance = .next t) :
    (∃ e es, s.events = e :: es ∧ State.happen { s with events := es } e = .next t) ∨
    (s.events = [] ∧ s.enabled = [] ∧ t = s) ∨
    (s.events = [] ∧ ∃ e k, e ∈ s.enabled ∧ State.happen { s with choices := k } e = .next t) := by
  simp only [State.advance] at h
  split at h
  · next he =>
    refine .inr ?_
    simp only [State.proceed] at h
    split at h
    · next hn => cases h; exact .inl ⟨he, hn, rfl⟩
    · next e hn => exact .inr ⟨he, e, s.choices, by simp [hn], h⟩
    · next e es _ hn => exact .inr ⟨he, _, s.choices + 1, hn ▸ choose_mem _ _ _, h⟩
  · next e es he => exact .inl ⟨e, es, he, h⟩

/-- A step whose event grants a port performs the port's outstanding transaction. -/
theorem State.advance_grant {s : State aw} {p : Port} {c : Command} {es : List Event}
    (h : s.events = .grant p :: es) (hc : (s.port p).outstanding = some c) :
    s.advance = State.perform { s with events := es } p c := by
  have hc' : (State.port { s with events := es } p).outstanding = some c := by cases p <;> exact hc
  simp only [State.advance, h, State.happen, hc']

/-! ### This hardware: the same at its AW -/

/-- The dispatch of `exec` is that of `execAt` at the AW of this hardware. -/
theorem exec_eq_execAt (i : Instr) (s : State) : exec i s = execAt i s := by cases i <;> rfl

theorem exec_eq_command (i : Instr) (s : State) : exec i s = s.command i.opcode (effectOf i) := by
  rw [exec_eq_execAt, execAt_eq_command]

theorem exec_next (i : Instr) (s : State) : ∃ t, exec i s = .next t := by
  rw [exec_eq_execAt]
  exact execAt_next i s

theorem exec_done {i : Instr} {s : State} {b : Block Config.aw} {data : Word} {slots : List Slot}
    (hp : permitted i.opcode s.granted.port = true) (h : effectOf i s.block = .done b data slots) :
    exec i s = .next (s.respond b data slots) := by
  rw [exec_eq_execAt, execAt_done hp h]

theorem exec_fail {i : Instr} {s : State} {code : Code}
    (hp : permitted i.opcode s.granted.port = true) (h : effectOf i s.block = .fail code) :
    exec i s = .next (s.raise code) := by
  rw [exec_eq_execAt, execAt_fail hp h]

theorem exec_cases {i : Instr} {s t : State} (h : exec i s = .next t) :
    (permitted i.opcode s.granted.port = true ∧ ∃ b data slots, effectOf i s.block = .done b data slots ∧
      t = s.respond b data slots) ∨
    (permitted i.opcode s.granted.port = true ∧ ∃ code, effectOf i s.block = .fail code ∧ t = s.raise code) ∨
    (permitted i.opcode s.granted.port = false ∧ t = s.raise .errPort) :=
  execAt_cases (exec_eq_execAt i s ▸ h)

theorem step_cases {s t : State} (h : step s = .next t) :
    (∃ e es, s.events = e :: es ∧ State.happen { s with events := es } e = .next t) ∨
    (s.events = [] ∧ s.enabled = [] ∧ t = s) ∨
    (s.events = [] ∧ ∃ e k, e ∈ s.enabled ∧ State.happen { s with choices := k } e = .next t) :=
  State.advance_cases h

/-- Performing a transaction that decodes is `exec` of its command, where the arbiter has taken it out of the port. -/
theorem State.perform_ok {s : State} {p : Port} {c : Command} {i : Instr} (h : decode c.word c.payload = .ok i) :
    s.perform p c = exec i (s.accept p c) := by
  simp only [State.perform, h, exec_eq_execAt]

/-! ### The words of bytes -/

theorem wordsOfBytes_length (raw : List Byte) : (wordsOfBytes raw).length = raw.length / 4 := by
  induction raw using wordsOfBytes.induct with
  | case1 b0 b1 b2 b3 bs ih => simp only [wordsOfBytes, List.length_cons, ih]; omega
  | case2 bs h =>
    match bs with
    | [] | [_] | [_, _] | [_, _, _] => simp [wordsOfBytes]
    | b0 :: b1 :: b2 :: b3 :: bs => exact absurd rfl (h b0 b1 b2 b3 bs)

end Sys2Proof.Machine
end

