-- ==== Sys2Proof/Laws/PerInstr.lean ====
section
/-! SUPPORT. Laws/PerInstr.lean: what is said of every command as syntax, one lemma per constructor. -/

namespace Sys2Proof.Laws.EncodedShape

/-- The encoding of a well-formed command names its operation in OP and carries
a payload of the length the word requires. -/
def Statement (i : Instr) : Prop :=
  i.wf = true → opField (encode i).1 = i.opcode.bits ∧
    (encode i).2.length = payloadLength i.opcode (encode i).1

theorem cfgr (r : Word) : Statement (.cfgr r) := fun _ => ⟨opField_commandWord _ _ _, rfl⟩

theorem cfga (ch sr bt : Word) : Statement (.cfga ch sr bt) := fun _ => ⟨opField_commandWord _ _ _, rfl⟩

theorem enq (src : List Word) : Statement (.enq src) := by
  intro h
  have h : src.length < 2 ^ 24 := by simpa [Instr.wf] using h
  refine ⟨opField_commandWord _ _ _, ?_⟩
  simpa [encode, payloadLength, Instr.opcode] using (Nat.mod_eq_of_lt h).symm

theorem enqd (n : BitVec 24) : Statement (.enqd n) := fun _ => ⟨opField_commandWord _ _ _, rfl⟩

theorem enqb (raw : List Byte) : Statement (.enqb raw) := by
  intro h
  have h : raw.length < 2 ^ 24 := by simpa [Instr.wf] using h
  refine ⟨opField_commandWord _ _ _, ?_⟩
  simpa [encode, payloadLength, Instr.opcode] using (Nat.mod_eq_of_lt h).symm

theorem deq (d : BitVec 24) (z : Bool) : Statement (.deq d z) := fun _ => ⟨opField_commandWord _ _ _, rfl⟩

theorem rdreg (a : Reg) : Statement (.rdreg a) := fun _ => ⟨opField_commandWord _ _ _, rfl⟩

end Sys2Proof.Laws.EncodedShape
end

