-- ==== Sys2Proof/Laws/Ring.lean ====
section
/-! SUPPORT. Laws/Ring.lean: the rounding of R14, and what a push, a pop and a configuration do to the
block's invariant and to its queue of words. -/

namespace Sys2Proof.Machine
variable {aw : Nat}

/-! ### nextPow2 (R14) -/

theorem nextPow2_pow (r : Nat) : ∃ k, nextPow2 r = 2 ^ k := by
  unfold nextPow2
  split
  · exact ⟨0, rfl⟩
  · exact ⟨_, rfl⟩

theorem nextPow2_le_pow {r k : Nat} (h : r ≤ 2 ^ k) : nextPow2 r ≤ 2 ^ k := by
  unfold nextPow2
  split
  · exact Nat.one_le_two_pow
  · next hr =>
    apply Nat.pow_le_pow_right (by omega)
    have h1 : 2 ^ Nat.log2 (r - 1) ≤ r - 1 := Nat.log2_self_le (by omega)
    have : 2 ^ Nat.log2 (r - 1) < 2 ^ k := by omega
    exact (Nat.pow_lt_pow_iff_right (by omega)).1 this

theorem le_nextPow2 (r : Nat) : r ≤ nextPow2 r := by
  unfold nextPow2
  split
  · omega
  · have := Nat.lt_log2_self (n := r - 1)
    omega

theorem nextPow2_pos (r : Nat) : 0 < nextPow2 r := by
  obtain ⟨k, hk⟩ := nextPow2_pow r
  rw [hk]
  exact Nat.two_pow_pos k

/-! ### The block's invariant through the three changes a command makes -/

theorem Block.Configured.cap_pos {b : Block aw} (h : b.Configured) : 0 < b.cap.toNat := by
  have := h.head_lt
  omega

theorem Block.Configured.cap_le {b : Block aw} (h : b.Configured) : b.cap.toNat ≤ 2 ^ aw := by
  obtain ⟨k, hk, h⟩ := h.cap_pow
  rw [h]
  exact Nat.pow_le_pow_right (by omega) hk

/-- A cursor reduced modulo CAP fits its AW bits. -/
theorem Block.Configured.cursor_toNat {b : Block aw} (h : b.Configured) (k : Nat) :
    (BitVec.ofNat aw (k % b.cap.toNat)).toNat = k % b.cap.toNat := by
  rw [BitVec.toNat_ofNat]
  exact Nat.mod_eq_of_lt (lt_of_lt_of_le (Nat.mod_lt _ h.cap_pos) h.cap_le)

/-- A fill level up to CAP fits its AW+1 bits. -/
theorem Block.Configured.level_toNat {b : Block aw} (h : b.Configured) {k : Nat} (hk : k ≤ b.cap.toNat) :
    (BitVec.ofNat (aw + 1) k).toNat = k := by
  rw [BitVec.toNat_ofNat]
  have := h.cap_le
  exact Nat.mod_eq_of_lt (by rw [Nat.pow_succ]; omega)

/-- Within the ring a place from HEAD is the place from TAIL that lies COUNT before it. -/
theorem Block.Configured.tail_add {b : Block aw} (h : b.Configured) (i : Nat) :
    (b.tail.toNat + i) % b.cap.toNat = (b.head.toNat + (b.count.toNat + i)) % b.cap.toNat := by
  rw [h.tail_eq, Nat.mod_add_mod, Nat.add_assoc]

theorem Block.Configured.push_tail {b : Block aw} (h : b.Configured) (ws : List Word) :
    (b.push ws).tail.toNat = (b.tail.toNat + ws.length) % b.cap.toNat := h.cursor_toNat _

theorem Block.Configured.push_count {b : Block aw} (h : b.Configured) {ws : List Word}
    (hw : ws.length ≤ b.free) : (b.push ws).count.toNat = b.count.toNat + ws.length :=
  h.level_toNat (by have := h.count_le; unfold Block.free at hw; omega)

theorem Block.Configured.pop_head {b : Block aw} (h : b.Configured) (n : Nat) :
    (b.pop n).head.toNat = (b.head.toNat + n) % b.cap.toNat := h.cursor_toNat _

theorem Block.Configured.pop_count {b : Block aw} (h : b.Configured) (n : Nat) :
    (b.pop n).count.toNat = b.count.toNat - n :=
  h.level_toNat (by have := h.count_le; omega)

/-- After a push the stored words are in the slots from TAIL on. -/
theorem Block.push_readSlot_hit {b : Block aw} (ws : List Word) (hw : ws.length ≤ b.cap.toNat)
    {i : Nat} (hi : i < ws.length) : (b.push ws).readSlot ((b.tail.toNat + i) % b.cap.toNat) = ws[i] := by
  simp [Block.readSlot, Memory.read_writeRing_hit _ _ _ _ _ hw hi]

/-- A push changes no other slot. -/
theorem Block.push_readSlot_miss {b : Block aw} (ws : List Word) {j : Nat}
    (h : ∀ i, i < ws.length → j ≠ (b.tail.toNat + i) % b.cap.toNat) :
    (b.push ws).readSlot j = b.readSlot j := by
  simp [Block.readSlot, Memory.read_writeRing_miss _ _ _ _ _ h]

theorem Block.Configured.live_ne {b : Block aw} (h : b.Configured) {ws : List Word} (hw : ws.length ≤ b.free)
    {i : Nat} (hi : i < b.count.toNat) :
    ∀ k, k < ws.length → (b.head.toNat + i) % b.cap.toNat ≠ (b.tail.toNat + k) % b.cap.toNat := by
  intro k hk he
  rw [h.tail_add] at he
  have hc := h.count_le
  unfold Block.free at hw
  have := ring_injective (by omega) (by omega) he
  omega

/-- A push keeps the invariant of a configured block. -/
theorem Block.Configured.push {b : Block aw} (h : b.Configured) {ws : List Word} (hw : ws.length ≤ b.free) :
    (b.push ws).Configured where
  cap_pow := h.cap_pow
  head_lt := h.head_lt
  tail_lt := by rw [h.push_tail]; exact Nat.mod_lt _ h.cap_pos
  count_le := by rw [h.push_count hw]; have := h.count_le; unfold Block.free at hw; simp; omega
  tail_eq := by
    rw [h.push_tail, h.push_count hw, h.tail_eq]
    simp [Nat.add_assoc]
  slots_lt := by
    intro c hc
    rcases Memory.mem_writeRing _ _ _ _ _ hc with hc | ⟨i, -, hc⟩
    · exact h.slots_lt c hc
    · rw [hc]; exact Nat.mod_lt _ h.cap_pos
  live := by
    intro i hi
    rw [h.push_count hw] at hi
    have hc := h.count_le
    have hf : ws.length ≤ b.cap.toNat := by unfold Block.free at hw; omega
    simp only [Block.push_stor, Block.push_head, Block.push_cap]
    by_cases hl : i < b.count.toNat
    · rw [Memory.read_writeRing_miss _ _ _ _ _ (h.live_ne hw hl)]
      exact h.live i hl
    · obtain ⟨k, rfl⟩ : ∃ k, i = b.count.toNat + k := ⟨i - b.count.toNat, by omega⟩
      rw [← h.tail_add, Memory.read_writeRing_hit _ _ _ _ _ hf (by omega)]
      rfl
  request := h.request
  ring := h.ring
  audio := h.audio

/-- A pop of buffered words keeps the invariant of a configured block. -/
theorem Block.Configured.pop {b : Block aw} (h : b.Configured) {n : Nat} (hn : n ≤ b.count.toNat) :
    (b.pop n).Configured where
  cap_pow := h.cap_pow
  head_lt := by rw [h.pop_head]; exact Nat.mod_lt _ h.cap_pos
  tail_lt := h.tail_lt
  count_le := by rw [h.pop_count]; have := h.count_le; simp; omega
  tail_eq := by
    rw [h.pop_head, h.pop_count]
    simp only [Block.pop_tail, Block.pop_cap, h.tail_eq, Nat.mod_add_mod]
    congr 1; omega
  slots_lt := h.slots_lt
  live := by
    intro i hi
    rw [h.pop_count] at hi
    rw [h.pop_head]
    simp only [Block.pop_stor, Block.pop_cap, Nat.mod_add_mod, Nat.add_assoc]
    exact h.live _ (by omega)
  request := h.request
  ring := h.ring
  audio := h.audio

/-- A configuration makes a configured block. -/
theorem Block.configured_configure (b : Block aw) {mode : Mode} {p : Nat} {ch sr bt : Word} (haw : aw ≤ 31)
    (h1 : 1 ≤ p) (h2 : p ≤ 2 ^ aw) (hr : mode = .ring → ch = 0 ∧ sr = 0 ∧ bt = 0)
    (ha : mode = .audio → p = depth ch sr bt) : (b.configure mode p ch sr bt).Configured := by
  have hcap : (b.configure mode p ch sr bt).cap.toNat = nextPow2 p := by
    simp only [Block.configure_cap, BitVec.toNat_ofNat]
    exact Nat.mod_eq_of_lt (by have := nextPow2_le_pow h2; rw [Nat.pow_succ]; omega)
  have hreq : (b.configure mode p ch sr bt).reqcap.toNat = p := by
    simp only [Block.configure_reqcap, BitVec.toNat_ofNat]
    have : 2 ^ aw ≤ 2 ^ 31 := Nat.pow_le_pow_right (by omega) haw
    exact Nat.mod_eq_of_lt (by omega)
  have hpos := nextPow2_pos p
  refine ⟨?_, ?_, ?_, ?_, ?_, ?_, ?_, ?_, hr, ?_⟩
  · obtain ⟨k, hk⟩ := nextPow2_pow p
    refine ⟨k, ?_, by rw [hcap, hk]⟩
    have := nextPow2_le_pow h2
    rw [hk] at this
    exact (Nat.pow_le_pow_iff_right (by omega)).1 this
  · rw [hcap]; simpa using hpos
  · rw [hcap]; simpa using hpos
  · simp
  · simp
  · simp
  · simp
  · rw [hreq, hcap]; exact ⟨h1, h2, rfl⟩
  · intro h; rw [hreq]; exact ha h

theorem Block.Inv.push {b : Block aw} (h : b.Inv) (hc : b.cfgd = true) {ws : List Word}
    (hw : ws.length ≤ b.free) : (b.push ws).Inv where
  configured _ := (h.configured hc).push hw
  unconfigured hn := by simp [hc] at hn
  stor_wf := Memory.writeRing_wf _ _ _ _ h.stor_wf

theorem Block.Inv.pop {b : Block aw} (h : b.Inv) (hc : b.cfgd = true) {n : Nat} (hn : n ≤ b.count.toNat) :
    (b.pop n).Inv where
  configured _ := (h.configured hc).pop hn
  unconfigured hn := by simp [hc] at hn
  stor_wf := h.stor_wf

theorem Block.Inv.configure (b : Block aw) {mode : Mode} {p : Nat} {ch sr bt : Word} (haw : aw ≤ 31)
    (h1 : 1 ≤ p) (h2 : p ≤ 2 ^ aw) (hr : mode = .ring → ch = 0 ∧ sr = 0 ∧ bt = 0)
    (ha : mode = .audio → p = depth ch sr bt) : (b.configure mode p ch sr bt).Inv where
  configured _ := b.configured_configure haw h1 h2 hr ha
  unconfigured hn := by simp at hn
  stor_wf := rfl

/-- LASTERR is no part of the invariant. -/
theorem Block.Inv.lasterr {b : Block aw} (h : b.Inv) (c : Code) : Block.Inv { b with lasterr := c } where
  configured hc := by
    have h := h.configured hc
    exact ⟨h.cap_pow, h.head_lt, h.tail_lt, h.count_le, h.tail_eq, h.slots_lt, h.live, h.request, h.ring, h.audio⟩
  unconfigured hc := by
    have h := h.unconfigured hc
    exact ⟨h.mode_eq, h.cap_eq, h.head_eq, h.tail_eq, h.count_eq, h.channels_eq, h.rate_eq, h.buftime_eq,
      h.reqcap_eq, h.stor_eq⟩
  stor_wf := h.stor_wf

theorem Block.Inv.reset (aw draw : Nat) : (Block.reset aw draw).Inv where
  configured hc := by simp at hc
  unconfigured _ := ⟨rfl, rfl, rfl, rfl, rfl, rfl, rfl, rfl, rfl, rfl⟩
  stor_wf := rfl

/-! ### The queue of buffered words (R24) -/

@[simp] theorem Block.contents_length (b : Block aw) : b.contents.length = b.count.toNat := by
  simp [Block.contents]

theorem Block.contents_getElem (b : Block aw) {i : Nat} (h : i < b.contents.length) :
    b.contents[i] = b.readSlot ((b.head.toNat + i) % b.cap.toNat) := by
  simp [Block.contents, Block.readRing_getElem]

/-- A push puts its words behind those buffered. -/
theorem Block.Configured.contents_push {b : Block aw} (h : b.Configured) {ws : List Word}
    (hw : ws.length ≤ b.free) : (b.push ws).contents = b.contents ++ ws := by
  have hc := h.count_le
  have hf : ws.length ≤ b.cap.toNat := by unfold Block.free at hw; omega
  apply List.ext_getElem
  · simp only [Block.contents_length, List.length_append, h.push_count hw]
  · intro i h1 h2
    rw [Block.contents_getElem, List.getElem_append]
    simp only [Block.push_head, Block.push_cap, Block.contents_length] at h1 h2 ⊢
    split
    · next hl =>
      rw [Block.push_readSlot_miss _ (h.live_ne hw hl), Block.contents_getElem]
    · next hl =>
      simp only [List.length_append, Block.contents_length] at h2
      obtain ⟨k, rfl⟩ : ∃ k, i = b.count.toNat + k := ⟨i - b.count.toNat, by omega⟩
      rw [← h.tail_add, Block.push_readSlot_hit _ hf (by omega)]
      congr 1; omega

/-- A pop takes the oldest words. -/
theorem Block.Configured.contents_pop {b : Block aw} (h : b.Configured) (n : Nat) :
    (b.pop n).contents = b.contents.drop n := by
  apply List.ext_getElem
  · simp [-Block.pop_count, h.pop_count]
  · intro i h1 h2
    rw [Block.contents_getElem, List.getElem_drop, Block.contents_getElem, h.pop_head]
    simp [Block.readSlot, Nat.add_assoc]

/-- The first words a DEQ reads are the oldest ones buffered. -/
theorem Block.readRing_head (b : Block aw) {n : Nat} (hn : n ≤ b.count.toNat) :
    b.readRing b.head.toNat n = b.contents.take n := by
  obtain ⟨m, hm⟩ : ∃ m, b.count.toNat = n + m := ⟨b.count.toNat - n, by omega⟩
  rw [Block.contents, hm, Block.readRing_append, List.take_left' (by simp)]

/-- An unconfigured block buffers nothing. -/
theorem Block.Unconfigured.contents_eq {b : Block aw} (h : b.Unconfigured) : b.contents = [] := by
  simp [Block.contents, h.count_eq, Block.readRing]

end Sys2Proof.Machine
end

