-- ==== Sys2Proof/Tests/Slice0.lean ====
section
/-! SUPPORT. Tests/Slice0.lean: ill-formed terms, words written out from the spec's encodings, one-step checks
against 95_test_vectors.md, and for every statement with hypotheses concrete terms that meet all of them. -/

namespace Sys2Proof.Tests

open Sys2Proof Sys2Proof.Machine

/-! ### Small states -/

/-- A ring block `CAP, HEAD, TAIL, COUNT` with the storage given. -/
def ring (cap : BitVec 25) (head tail : BitVec 24) (count : BitVec 25) (stor : Memory) : Block Config.aw :=
  { Block.reset Config.aw 0 with
    cfgd := true, cap := cap, head := head, tail := tail, count := count, stor := stor
    reqcap := cap.setWidth 32 }

/-- A machine that is performing a command of port `p` with destination buffer `dest` on block `b`. -/
def onPort (p : Port) (b : Block Config.aw) (dest : List Word) : State :=
  { State.reset with block := b, granted := ⟨p, ⟨0, [], dest⟩⟩ }

/-- The state a command answers. -/
def after (o : Host.Outcome State Fault Refusal) : Option State :=
  match o with
  | .next t => some t
  | _ => none

/-- `CAP, HEAD, TAIL, COUNT` and STATUS. -/
def view (s : State) : List Nat × Word :=
  ([s.block.cap.toNat, s.block.head.toNat, s.block.tail.toNat, s.block.count.toNat], s.block.status)

/-- The last response and destination buffer. -/
def lastAnswer (s : State) : Option (Response × List Word) := s.log.getLast?.map (fun c => (c.response, c.dest))

/-- The wrapped block of 95_test_vectors.md 2.6: words 1, 2, 3, 4 in slots 6, 7, 0, 1 of 8. -/
def live : Block Config.aw := ring 8 6 2 4 [(0, 3), (1, 4), (6, 1), (7, 2)]

/-- A configured block with nothing buffered. -/
def hollow : Block Config.aw := ring 8 5 5 0 []

/-! ### Ill-formed terms are refused -/

theorem test_wf_refuses_long_enq : (Instr.enq (List.replicate (2 ^ 24) 0)).wf = false := by
  simp only [Instr.wf, List.length_replicate]
  decide

theorem test_wf_refuses_long_enqb : (Instr.enqb (List.replicate (2 ^ 24) 0)).wf = false := by
  simp only [Instr.wf, List.length_replicate]
  decide

theorem test_wf_accepts_longest_enq : (Instr.enq (List.replicate (2 ^ 24 - 1) 0)).wf = true := by
  simp only [Instr.wf, List.length_replicate]
  decide

/-! ### Words written out bit by bit from R71, R72, R74, R75 -/

theorem test_decode_cfgr : decode 0b00010000000000000000000000000000 [.word 7] = .ok (.cfgr 7) := by decide

theorem test_decode_cfga :
    decode 0b00100000000000000000000000000000 [.word 8, .word 9, .word 10] = .ok (.cfga 8 9 10) := by decide

theorem test_decode_enq :
    decode 0b01000000000000000000000000000010 [.word 0xFFFFFFFF, .word 5] = .ok (.enq [0xFFFFFFFF, 5]) := by
  decide

theorem test_decode_enqd : decode 0b01010000111111111111111111111111 [] = .ok (.enqd 0xFFFFFF) := by decide

theorem test_decode_enqb :
    decode 0b01100000000000000000000000000011 [.byte 1, .byte 2, .byte 3] = .ok (.enqb [1, 2, 3]) := by decide

theorem test_decode_deq : decode 0b10000000100000000000000000000001 [] = .ok (.deq 0x800001 false) := by decide

theorem test_decode_deq_z : decode 0b10000001000000000000000000000100 [] = .ok (.deq 4 true) := by decide

theorem test_decode_rdreg : decode 0b11000000000000000000000000001000 [] = .ok (.rdreg .buftime) := by decide

/-- 95_test_vectors.md 2.8. -/
theorem test_decode_rejections :
    decode 0x00000000 [] = .error .reservedOp ∧ decode 0x30000000 [] = .error .reservedOp ∧
    decode 0x70000000 [] = .error .reservedOp ∧ decode 0x41000001 [.word 7] = .error .reservedField ∧
    decode 0x10000001 [.word 7] = .error .reservedField ∧ decode 0x82000000 [] = .error .reservedField ∧
    decode 0xC0000100 [] = .error .reservedField ∧ decode 0xC000000A [] = .error .reservedRaddr ∧
    decode 0x40000002 [.word 1] = .error .payloadLength ∧ decode 0x60000001 [.word 1] = .error .payloadType := by
  decide

/-- The opcode table's words, and an ENQB whose payload bytes follow the command word. -/
theorem test_decodeTableWord :
    decodeTableWord 32 0x10000000 = some (.cfgr 0) ∧ decodeTableWord 32 0x20000000 = some (.cfga 0 0 0) ∧
    decodeTableWord 32 0x40000000 = some (.enq []) ∧ decodeTableWord 32 0x50000000 = some (.enqd 0) ∧
    decodeTableWord 32 0x60000000 = some (.enqb []) ∧ decodeTableWord 32 0x80000000 = some (.deq 0 false) ∧
    decodeTableWord 32 0xC0000000 = some (.rdreg .capacity) ∧
    decodeTableWord 48 0x0201_60000002 = some (.enqb [1, 2]) := by
  decide

/-- The next step from reset performs the placed command: CFGR 10 gives capacity 16 (R100's worked example). -/
theorem test_withFetchWord_runs :
    (after (step (State.reset.withFetchWord 64 0x0000000A_10000000))).map view = some ([16, 0, 0, 0], 0x5) := by
  decide

/-! ### One command at a time, the expected values from 95_test_vectors.md -/

/-- 2.1: r = 3. -/
theorem test_cfgr_rounds_up :
    (after (exec (.cfgr 3) (onPort .host State.reset.block []))).map view = some ([4, 0, 0, 0], 0x5) := by decide

/-- 2.1: r = 2^24 + 1. -/
theorem test_cfgr_above_the_bound :
    (after (exec (.cfgr 16777217) (onPort .host State.reset.block []))).map view =
      some ([0, 0, 0, 0], 0x500) := by decide

/-- 2.2: (2, 48000, 1). -/
theorem test_cfga_rounds_the_product :
    (after (exec (.cfga 2 48000 1) (onPort .host live []))).map view = some ([131072, 0, 0, 0], 0x7) := by decide

/-- 2.2: (65536, 65536, 1), whose product is 2^32. -/
theorem test_cfga_product_is_exact :
    (after (exec (.cfga 65536 65536 1) (onPort .host State.reset.block []))).map view =
      some ([0, 0, 0, 0], 0x500) := by decide

/-- 2.3: four words from slot 6 of 8. -/
theorem test_enq_wraps :
    (after (exec (.enq [1, 2, 3, 4]) (onPort .producer (ring 8 6 6 0 []) []))).map
      (fun t => (view t, t.block.stor)) = some (([8, 6, 2, 4], 0x1), [(0, 3), (1, 4), (6, 1), (7, 2)]) := by
  decide

/-- 2.3: five words into three free slots, the last two dropped. -/
theorem test_enq_truncates :
    (after (exec (.enq [1, 2, 3, 4, 5]) (onPort .producer (ring 8 0 5 5 []) []))).map
      (fun t => (view t, t.block.stor)) = some (([8, 0, 0, 8], 0x9), [(5, 1), (6, 2), (7, 3)]) := by decide

/-- 2.4: ENQD 5. -/
theorem test_enqd_truncates :
    (after (exec (.enqd 5) (onPort .producer (ring 8 0 5 5 []) []))).map
      (fun t => (view t, t.block.stor)) = some (([8, 0, 0, 8], 0x9), [(5, 0), (6, 0), (7, 0)]) := by decide

/-- 2.5: nine bytes are two words, and byte 7F is ignored. -/
theorem test_enqb_little_endian :
    (after (exec (.enqb [0x00, 0x00, 0x80, 0x3F, 0x00, 0x00, 0x00, 0xBF, 0x7F])
      (onPort .producer (ring 8 0 0 0 []) []))).map (fun t => (view t, t.block.stor)) =
      some (([8, 0, 2, 2], 0x1), [(0, 0x3F800000), (1, 0xBF000000)]) := by decide

/-- 2.6: four words across slot 7. -/
theorem test_deq_wraps :
    (after (exec (.deq 4 false) (onPort .consumer live [0xEE, 0xEE, 0xEE, 0xEE]))).map
      (fun t => (view t, lastAnswer t)) =
      some (([8, 2, 2, 0], 0x5),
        some (⟨.ok, 0, [.write 1, .write 2, .write 3, .write 4]⟩, [1, 2, 3, 4])) := by decide

/-- 2.6: DEQ 4 and DEQ.Z 4 with two words buffered. -/
theorem test_deq_underruns :
    (after (exec (.deq 4 false) (onPort .consumer (ring 8 0 2 2 [(0, 10), (1, 11)])
      [0xEE, 0xEE, 0xEE, 0xEE]))).map lastAnswer =
      some (some (⟨.ok, 0, [.write 10, .write 11, .keep, .keep]⟩, [10, 11, 0xEE, 0xEE])) ∧
    (after (exec (.deq 4 true) (onPort .consumer (ring 8 0 2 2 [(0, 10), (1, 11)])
      [0xEE, 0xEE, 0xEE, 0xEE]))).map lastAnswer =
      some (some (⟨.ok, 0, [.write 10, .write 11, .write 0, .write 0]⟩, [10, 11, 0, 0])) := by decide

/-- 2.7: STATUS of a full ring block, and of an audio one after an ERR_PORT. -/
theorem test_rdreg_status :
    (after (exec (.rdreg .status) (onPort .consumer (ring 16 3 3 16 []) []))).map lastAnswer =
      some (some (⟨.ok, 0x9, []⟩, [])) ∧
    (after (exec (.rdreg .status) (onPort .producer { ring 8 0 0 0 [] with mode := .audio, lasterr := .errPort }
      []))).map lastAnswer = some (some (⟨.ok, 0x407, []⟩, [])) := by decide

/-- 2.8: on the reset state a DEQ of port H is ERR_PORT, not ERR_UNCONF. -/
theorem test_port_before_configuration :
    (after (exec (.deq 1 false) (onPort .host State.reset.block [9]))).map lastAnswer =
      some (some (⟨.errPort, 0, []⟩, [9])) := by decide

/-! ### P4: two ports racing, both orders are runs -/

/-- After `CFGR 4`, `ENQ 1, 2` and `DEQ.Z 2` are outstanding, and the arbiter takes them in the order given. -/
def race (order : List Event) : State :=
  { State.reset with
    block := ring 4 0 0 0 []
    producer := ⟨some ⟨0x40000002, [.word 1, .word 2], []⟩, []⟩
    consumer := ⟨some ⟨0x81000002, [], [9, 9]⟩, []⟩
    events := order }

theorem test_race_enq_first :
    (after (Sys2Proof.core.run 2 (race [.grant .producer, .grant .consumer]))).map
      (fun t => (view t, lastAnswer t)) =
      some (([4, 2, 2, 0], 0x5), some (⟨.ok, 0, [.write 1, .write 2]⟩, [1, 2])) := by decide

theorem test_race_deq_first :
    (after (Sys2Proof.core.run 2 (race [.grant .consumer, .grant .producer]))).map
      (fun t => (view t, t.log.map Completion.dest)) = some (([4, 0, 2, 2], 0x1), [[0, 0], []]) := by decide

/-- A program assembled and loaded waits on its ports, each port's commands in the order of its lines. -/
theorem test_program_is_loaded :
    (assemble ["H: CFGR 10", "P: ENQ \x7B1\x7D", "P: ENQD 2"]).map
      (fun ls => (State.load State.reset (ls.map (fun l => (l.1, ⟨l.2.1, l.2.2, []⟩)))).producer.upcoming) =
      some [⟨0x40000001, [.word 1], []⟩, ⟨0x50000002, [], []⟩] := by decide

/-! ### Every hypothesis is met somewhere -/

theorem live_inv : live.Inv where
  configured _ :=
    { cap_pow := ⟨3, by decide, by decide⟩
      head_lt := by decide
      tail_lt := by decide
      count_le := by decide
      tail_eq := by decide
      slots_lt := by decide
      live := by decide
      request := by decide
      ring := by decide
      audio := by decide }
  unconfigured h := by cases h
  stor_wf := by decide

theorem hollow_inv : hollow.Inv where
  configured _ :=
    { cap_pow := ⟨3, by decide, by decide⟩
      head_lt := by decide
      tail_lt := by decide
      count_le := by decide
      tail_eq := by decide
      slots_lt := by decide
      live := by decide
      request := by decide
      ring := by decide
      audio := by decide }
  unconfigured h := by cases h
  stor_wf := by decide

theorem onPort_inv {b : Block Config.aw} (h : b.Inv) (p : Port) (dest : List Word) : (onPort p b dest).Inv :=
  ⟨h, by simp [onPort, State.reset, State.resetAt]⟩

/-- A machine whose next event grants port P's `ENQ 1, 2`. -/
def granting : State := race [.grant .producer]

/-- A machine whose next event grants a transaction that is no command. -/
def grantingIllegal : State :=
  { State.reset with host := ⟨some ⟨0xF0000000, [], []⟩, []⟩, events := [.grant .host] }

theorem witness_HardwareResetBetweenCommands : (race [.reset]).events = .reset :: [] := rfl

theorem witness_DecodeOfEncode :
    (Instr.enq (List.replicate (2 ^ 24 - 1) 0)).wf = true ∧ (Instr.enqb []).wf = true ∧
    (Instr.deq 0xFFFFFF true).wf = true := by
  simp only [Instr.wf, List.length_replicate]
  decide

theorem witness_EncodeOfDecode : decode 0x81FFFFFF [] = .ok (.deq 0xFFFFFF true) := by decide

theorem witness_DecodedWordsMatchTheirTableRow :
    decode 0x10000000 [.word 0] = .ok (.cfgr 0) ∧
    decode 0x20000000 [.word 0, .word 0, .word 0] = .ok (.cfga 0 0 0) ∧
    decode 0x40000001 [.word 0] = .ok (.enq [0]) ∧ decode 0x50FFFFFF [] = .ok (.enqd 0xFFFFFF) ∧
    decode 0x60000001 [.byte 0] = .ok (.enqb [0]) ∧ decode 0x81FFFFFF [] = .ok (.deq 0xFFFFFF true) ∧
    decode 0xC0000009 [] = .ok (.rdreg .reqcap) := by decide

/-- One rejected transaction for each line of R201's list. -/
theorem witness_DecodeRejectsExactlyTheIllegal_each :
    decode 0xF0000000 [] = .error .reservedOp ∧ decode 0x28000000 [.word 1, .word 1, .word 1] = .error .reservedField ∧
    decode 0x58000000 [] = .error .reservedField ∧ decode 0x88000000 [] = .error .reservedField ∧
    decode 0xC8000000 [] = .error .reservedField ∧ decode 0xC00000FF [] = .error .reservedRaddr ∧
    decode 0x10000000 [] = .error .payloadLength ∧ decode 0x10000000 [.byte 1] = .error .payloadType ∧
    decode 0x20000000 [.word 1, .word 1] = .error .payloadLength ∧
    decode 0x40000000 [.word 1] = .error .payloadLength ∧ decode 0x60000001 [] = .error .payloadLength ∧
    decode 0x50000001 [.word 0] = .error .payloadLength := by decide

theorem witness_DecodeRejectsExactlyTheIllegal_performed :
    grantingIllegal.events = .grant .host :: [] ∧
    (grantingIllegal.port .host).outstanding = some ⟨0xF0000000, [], []⟩ ∧
    decode 0xF0000000 [] = .error .reservedOp := by decide

theorem witness_RegisterMapAddresses : 0x09 < (0x0A : BitVec 8).toNat ∧ 0x09 < (0xFF : BitVec 8).toNat := by
  decide

theorem witness_StepRunsTheDecodedCommand :
    granting.events = .grant .producer :: [] ∧
    (granting.port .producer).outstanding = some ⟨0x40000002, [.word 1, .word 2], []⟩ ∧
    decode 0x40000002 [.word 1, .word 2] = .ok (.enq [1, 2]) := by decide

/-- One port alone has a command outstanding, so the step performs it. -/
theorem witness_OpenStepsRunTheDecodedCommand :
    { granting with consumer := .idle, events := [] : State }.events = [] ∧
    ∃ t, step { granting with consumer := .idle, events := [] : State } = .next t ∧
      t.log ≠ { granting with consumer := .idle, events := [] : State }.log :=
  ⟨rfl, _, rfl, by decide⟩

theorem witness_IllegalTransactionChangesOnlyLasterr :
    grantingIllegal.events = .grant .host :: [] ∧
    (grantingIllegal.port .host).outstanding = some ⟨0xF0000000, [], []⟩ ∧
    decode 0xF0000000 [] = .error .reservedOp := by decide

/-- Port P has a command to issue, and in the second state one outstanding as well. -/
theorem witness_IssuingACommand :
    (let s : State := { State.reset with producer := ⟨none, [⟨0x50000001, [], []⟩]⟩, events := [.issue .producer] }
     s.events = .issue .producer :: [] ∧ (s.port .producer).upcoming = ⟨0x50000001, [], []⟩ :: [] ∧
       (s.port .producer).outstanding = none) ∧
    (let s : State :=
      { State.reset with
        producer := ⟨some ⟨0x50000001, [], []⟩, [⟨0x50000001, [], []⟩]⟩, events := [.issue .producer] }
     s.events = .issue .producer :: [] ∧ (s.port .producer).upcoming = ⟨0x50000001, [], []⟩ :: [] ∧
       (s.port .producer).outstanding ≠ none) := by decide

theorem witness_IdleBlockKeepsItsState :
    (onPort .host live []).events = [] ∧ ∀ p, (onPort .host live []).port p = .idle :=
  ⟨rfl, fun p => by cases p <;> rfl⟩

/-- Two machines with one block and one port, that differ in what came before. -/
theorem witness_ExecIsAFunctionOfBlockPortAndCommand :
    (onPort .consumer live []).block = { onPort .consumer live [9] with choices := 5 : State }.block ∧
    (onPort .consumer live []).granted.port = { onPort .consumer live [9] with choices := 5 : State }.granted.port ∧
    (∃ t, exec (.deq 2 true) (onPort .consumer live []) = .next t) ∧
    (∃ t, exec (.deq 2 true) { onPort .consumer live [9] with choices := 5 : State } = .next t) :=
  ⟨rfl, rfl, ⟨_, rfl⟩, ⟨_, rfl⟩⟩

theorem granting_noReset : granting.noReset := by simp [granting, race, State.noReset]

theorem witness_StepPerformsAtMostOneCommand : (∃ t, step granting = .next t) ∧ granting.noReset :=
  ⟨⟨_, rfl⟩, granting_noReset⟩

theorem witness_EachPortsCommandsKeepTheirOrder : (∃ t, step granting = .next t) ∧ granting.noReset :=
  ⟨⟨_, rfl⟩, granting_noReset⟩

/-- Two ports race, so the free choice decides. -/
theorem witness_EveryOpenStepMakesProgress : (race []).events = [] ∧ ∃ p, (race []).port p ≠ .idle :=
  ⟨rfl, .producer, by decide⟩

theorem witness_EveryListedCommandIsAnswered : (race []).events = [] ∧ (race []).work = 2 := by decide

/-- Every kind of command on a port that may not issue it, and on one that may. -/
theorem witness_WrongPortFails :
    (onPort .producer live []).granted.port ≠ .host ∧ (onPort .consumer live []).granted.port ≠ .producer ∧
    (onPort .host live []).granted.port ≠ .consumer ∧ (onPort .host live []).granted.port = .host ∧
    (onPort .producer live []).granted.port = .producer ∧ (onPort .consumer live []).granted.port = .consumer := by
  decide

theorem witness_UnconfiguredDataCommandsFail :
    State.reset.block.cfgd = false ∧ (Instr.enq []).opcode = .enq ∧ (Instr.enqd 1).opcode = .enqd ∧
    (Instr.enqb []).opcode = .enqb ∧ (Instr.deq 2 true).opcode = .deq ∧
    (onPort .producer State.reset.block []).granted.port = .producer ∧
    (onPort .consumer State.reset.block []).granted.port = .consumer ∧
    (∃ t, exec (.rdreg .status) (onPort .consumer State.reset.block []) = .next t) :=
  ⟨rfl, rfl, rfl, rfl, rfl, rfl, rfl, ⟨_, rfl⟩⟩

/-- A step that answers with OK, one that answers with an error, and a hardware reset. -/
theorem witness_LasterrIsSticky :
    ((∃ t, step granting = .next t) ∧ granting.noReset) ∧
    ((∃ t, step grantingIllegal = .next t) ∧ grantingIllegal.noReset) ∧
    ((race [.reset]).events = .reset :: [] ∧ ∃ t, step (race [.reset]) = .next t) :=
  ⟨⟨⟨_, rfl⟩, granting_noReset⟩, ⟨⟨_, rfl⟩, by simp [grantingIllegal, State.noReset]⟩, rfl, _, rfl⟩

theorem witness_FirstApplicableErrorIsReported :
    granting.events = .grant .producer :: [] ∧
    (granting.port .producer).outstanding = some ⟨0x40000002, [.word 1, .word 2], []⟩ := by decide

theorem witness_NormalConditionsAreNotErrors :
    permitted .cfgr (onPort .host live []).granted.port = true ∧ 1 ≤ (3 : Word).toNat ∧ (3 : Word).toNat ≤ 2 ^ 24 ∧
    1 ≤ (4096 : Word).toNat * (4096 : Word).toNat * (1 : Word).toNat ∧
    (4096 : Word).toNat * (4096 : Word).toNat * (1 : Word).toNat ≤ 2 ^ 24 ∧
    permitted .enq (onPort .producer live []).granted.port = true ∧ live.cfgd = true ∧
    permitted .deq (onPort .consumer live []).granted.port = true := by decide

/-- The values where the clauses of CFGR meet: 0 and 1, 2^24 and 2^24 + 1. -/
theorem witness_CfgrConfiguresOrFails :
    (onPort .host live []).granted.port = .host ∧ (onPort .producer live []).granted.port ≠ .host ∧
    2 ^ 24 < (16777217 : Word).toNat ∧ ((16777216 : Word) ≠ 0 ∧ (16777216 : Word).toNat ≤ 2 ^ 24) ∧
    ((1 : Word) ≠ 0 ∧ (1 : Word).toNat ≤ 2 ^ 24) := by decide

/-- Products 0 (BUFTIME 0), 2^24 + 4096, 2^32, 2^24 and 1. -/
theorem witness_CfgaConfiguresOrFails :
    (onPort .host live []).granted.port = .host ∧ (onPort .consumer live []).granted.port ≠ .host ∧
    2 ^ 24 < (4097 : Word).toNat * (4096 : Word).toNat * (1 : Word).toNat ∧
    2 ^ 24 < (65536 : Word).toNat * (65536 : Word).toNat * (1 : Word).toNat ∧
    (1 ≤ (4096 : Word).toNat * (4096 : Word).toNat * (1 : Word).toNat ∧
      (4096 : Word).toNat * (4096 : Word).toNat * (1 : Word).toNat ≤ 2 ^ 24) ∧
    (1 ≤ (1 : Word).toNat * (1 : Word).toNat * (1 : Word).toNat ∧
      (1 : Word).toNat * (1 : Word).toNat * (1 : Word).toNat ≤ 2 ^ 24) := by decide

/-- CFGR 0 on a configured block with four words. -/
theorem witness_FailedConfigurationKeepsTheInstance :
    (Instr.cfgr 0).opcode = .cfgr ∧
    ∃ t, exec (.cfgr 0) (onPort .host live []) = .next t ∧
      t.log = (onPort .host live []).logWith ⟨.errCfg, 0, []⟩ [] ∧ Code.errCfg ≠ Code.ok :=
  ⟨rfl, _, rfl, rfl, by decide⟩

theorem witness_NextPow2IsTheSmallest : 1 ≤ 1 ∧ nextPow2 1 = 1 ∧ nextPow2 10 = 16 ∧ nextPow2 16 = 16 := by decide

/-- AW = 0 and AW = 24, a request of 1 and of 2^AW. -/
theorem witness_CapacityRoundingLaw :
    (0 ≤ 31 ∧ ∃ b', (Block.reset 0 0).cfgr 1 = .done b' 0 []) ∧
    (24 ≤ 31 ∧ ∃ b', (Block.reset 24 0).cfgr 16777216 = .done b' 0 []) ∧
    (31 ≤ 31 ∧ ∃ b', (Block.reset 31 0).cfgr 3 = .done b' 0 []) :=
  ⟨⟨by decide, _, rfl⟩, ⟨by decide, _, rfl⟩, ⟨by decide, _, rfl⟩⟩

theorem witness_ConfigurationReplacesTheInstance :
    (∃ a' b', live.cfgr 3 = .done a' 0 [] ∧ hollow.cfgr 3 = .done b' 0 []) ∧
    (∃ a' b', live.cfga 2 3 1 = .done a' 0 [] ∧ hollow.cfga 2 3 1 = .done b' 0 []) :=
  ⟨⟨_, _, rfl, rfl⟩, ⟨_, _, rfl, rfl⟩⟩

theorem witness_OnlyConfigurationChangesCap : (∃ t, step granting = .next t) ∧ granting.noReset :=
  ⟨⟨_, rfl⟩, granting_noReset⟩

theorem witness_ModeChangesNoDataCommand :
    (∃ b', live.enq [1] = .done b' 0 []) ∧ (∃ b', live.enqd 1 = .done b' 0 []) ∧
    (∃ b', live.enqb [1, 2, 3, 4] = .done b' 0 []) ∧
    (∃ b', live.deq .zero 1 true = .done b' 0 [.write 1]) ∧
    (Reg.free ≠ .status ∧ ∃ b', live.rdreg .free = .done b' 4 []) :=
  ⟨⟨_, rfl⟩, ⟨_, rfl⟩, ⟨_, rfl⟩, ⟨_, rfl⟩, by decide, _, rfl⟩

/-- Port P on the live block and on the reset block, and a port that may not enqueue. -/
theorem witness_EnqBuffersTheFirstWords :
    (onPort .producer live []).Inv ∧ (onPort .producer live []).granted.port = .producer ∧ live.cfgd = true ∧
    (onPort .producer State.reset.block []).Inv ∧ State.reset.block.cfgd = false ∧
    (onPort .host live []).granted.port ≠ .producer ∧ ([1, 2] : List Word).length = (2 : BitVec 24).toNat :=
  ⟨onPort_inv live_inv _ _, rfl, rfl, onPort_inv (Block.Inv.reset _ _) _ _, rfl, by decide, rfl⟩

/-- Four free slots: four words fit, five do not. -/
theorem witness_EnqTruncates :
    (onPort .producer live []).Inv ∧ (onPort .producer live []).granted.port = .producer ∧ live.cfgd = true ∧
    (∃ t, exec (.enq [1, 2, 3, 4]) (onPort .producer live []) = .next t) ∧
    ([1, 2, 3, 4] : List Word).length ≤ live.free ∧
    (∃ t, exec (.enq [1, 2, 3, 4, 5]) (onPort .producer live []) = .next t) ∧
    live.free < ([1, 2, 3, 4, 5] : List Word).length :=
  ⟨onPort_inv live_inv _ _, rfl, rfl, ⟨_, rfl⟩, by decide, ⟨_, rfl⟩, by decide⟩

theorem witness_EnqdBuffersZeros :
    (onPort .producer live []).Inv ∧ (onPort .producer live []).granted.port = .producer ∧ live.cfgd = true ∧
    (onPort .producer State.reset.block []).Inv ∧ State.reset.block.cfgd = false ∧
    (onPort .consumer live []).granted.port ≠ .producer :=
  ⟨onPort_inv live_inv _ _, rfl, rfl, onPort_inv (Block.Inv.reset _ _) _ _, rfl, by decide⟩

theorem witness_EnqbBuffersDecodedWords :
    (onPort .producer live []).Inv ∧ (onPort .producer live []).granted.port = .producer ∧ live.cfgd = true ∧
    (onPort .producer State.reset.block []).Inv ∧ State.reset.block.cfgd = false ∧
    (onPort .consumer live []).granted.port ≠ .producer ∧ ([1, 2, 3] : List Byte).length = (3 : BitVec 24).toNat :=
  ⟨onPort_inv live_inv _ _, rfl, rfl, onPort_inv (Block.Inv.reset _ _) _ _, rfl, by decide, rfl⟩

theorem witness_EnqbDropsTrailingBytes :
    ([1, 2, 3, 4] : List Byte).length % 4 = 0 ∧ ([5, 6, 7] : List Byte).length < 4 := by decide

theorem witness_DeqTakesTheOldestWords :
    (onPort .consumer live []).Inv ∧ (onPort .consumer live []).granted.port = .consumer ∧ live.cfgd = true ∧
    (onPort .consumer State.reset.block []).Inv ∧ State.reset.block.cfgd = false ∧
    (onPort .producer live []).granted.port ≠ .consumer :=
  ⟨onPort_inv live_inv _ _, rfl, rfl, onPort_inv (Block.Inv.reset _ _) _ _, rfl, by decide⟩

theorem witness_UnderrunKeepsTheDestination :
    (onPort .consumer live [9, 9, 9, 9, 9]).granted.port = .consumer ∧ live.cfgd = true ∧
    live.count.toNat < (5 : BitVec 24).toNat ∧
    (onPort .consumer live [9, 9, 9, 9, 9]).granted.command.dest.length = (5 : BitVec 24).toNat := by decide

theorem witness_TotalUnderrunIsSilence :
    (onPort .consumer hollow [9, 9]).Inv ∧ (onPort .consumer hollow [9, 9]).granted.port = .consumer ∧
    hollow.cfgd = true ∧ hollow.count = 0 ∧
    (onPort .consumer hollow [9, 9]).granted.command.dest.length = (2 : BitVec 24).toNat :=
  ⟨onPort_inv hollow_inv _ _, rfl, rfl, rfl, rfl⟩

theorem witness_PartialUnderrunIsZeroFilled :
    (onPort .consumer live [9, 9, 9, 9, 9]).granted.port = .consumer ∧ live.cfgd = true ∧ 0 < live.count.toNat ∧
    live.count.toNat < (5 : BitVec 24).toNat ∧
    (onPort .consumer live [9, 9, 9, 9, 9]).granted.command.dest.length = (5 : BitVec 24).toNat := by decide

theorem witness_UntouchedFillKeepsTheTail :
    live.cfgd = true ∧ 0 < live.count.toNat ∧ live.count.toNat < (5 : BitVec 24).toNat := by decide

theorem witness_FifoRoundTrip :
    Config.aw ≤ 31 ∧ hollow.Inv ∧ hollow.cfgd = true ∧ hollow.count = 0 ∧
    ([1, 2, 3, 4, 5, 6, 7, 8] : List Word).length ≤ hollow.free ∧
    (8 : BitVec 24).toNat = ([1, 2, 3, 4, 5, 6, 7, 8] : List Word).length :=
  ⟨by decide, hollow_inv, rfl, rfl, by decide, rfl⟩

theorem witness_SlotsUpdateTheDestination :
    ((after (exec (.deq 2 true) (onPort .consumer State.reset.block [9, 9]))).map lastAnswer =
      some (some (⟨.errUnconf, 0, []⟩, [9, 9]))) ∧
    ([.write 7, .keep] : List Slot).length = ([8, 9] : List Word).length ∧
    ([.write 7, .keep] : List Slot)[0]? = some (.write 7) ∧ ([.write 7, .keep] : List Slot)[1]? = some .keep := by
  decide

theorem witness_RdregReadsTheRegister :
    0x09 < (0x0A : BitVec 28).toNat ∧ 0x09 < (0x100 : BitVec 28).toNat ∧ 0x09 < (0xFFFFFFF : BitVec 28).toNat := by
  decide

theorem witness_UnconfiguredRegistersReadZero : State.reset.block.Inv ∧ State.reset.block.cfgd = false :=
  ⟨Block.Inv.reset _ _, rfl⟩

theorem witness_CountPlusFreeIsCapacity : live.Inv := live_inv

theorem witness_EveryStepKeepsTheInvariant : (race []).Inv ∧ granting.Inv ∧ ∃ t, step granting = .next t := by
  have h : (ring 4 0 0 0 []).Inv :=
    { configured := fun _ =>
        { cap_pow := ⟨2, by decide, by decide⟩
          head_lt := by decide
          tail_lt := by decide
          count_le := by decide
          tail_eq := by decide
          slots_lt := by decide
          live := by decide
          request := by decide
          ring := by decide
          audio := by decide }
      unconfigured := fun h => by cases h
      stor_wf := by decide }
  exact ⟨⟨h, by simp [race, State.reset, State.resetAt]⟩, ⟨h, by simp [granting, race, State.reset, State.resetAt]⟩, _, rfl⟩

/-- Each command succeeds on the live block. -/
theorem witness_EffectsKeepTheInvariantForEveryAw :
    Config.aw ≤ 31 ∧ live.Inv ∧ (∃ b', live.cfgr 3 = .done b' 0 []) ∧ (∃ b', live.cfga 2 3 1 = .done b' 0 []) ∧
    (∃ b', live.enq [1] = .done b' 0 []) ∧ (∃ b', live.enqd 1 = .done b' 0 []) ∧
    (∃ b', live.enqb [1, 2, 3, 4] = .done b' 0 []) ∧ (∃ b', live.deq .zero 1 true = .done b' 0 [.write 1]) ∧
    (∃ b', live.rdreg .free = .done b' 4 []) :=
  ⟨by decide, live_inv, ⟨_, rfl⟩, ⟨_, rfl⟩, ⟨_, rfl⟩, ⟨_, rfl⟩, ⟨_, rfl⟩, ⟨_, rfl⟩, _, rfl⟩

/-- Each command succeeds on the live block. -/
theorem witness_BlockRefinesABoundedQueue :
    Config.aw ≤ 31 ∧ live.Inv ∧ (∃ b', live.cfgr 3 = .done b' 0 []) ∧ (∃ b', live.cfga 2 3 1 = .done b' 0 []) ∧
    (∃ b', live.enq [1] = .done b' 0 []) ∧ (∃ b', live.enqd 1 = .done b' 0 []) ∧
    (∃ b', live.enqb [1, 2, 3, 4] = .done b' 0 []) ∧ (∃ b', live.deq .zero 1 true = .done b' 0 [.write 1]) ∧
    (∃ b', live.rdreg .free = .done b' 4 []) :=
  ⟨by decide, live_inv, ⟨_, rfl⟩, ⟨_, rfl⟩, ⟨_, rfl⟩, ⟨_, rfl⟩, ⟨_, rfl⟩, ⟨_, rfl⟩, _, rfl⟩

/-- A configured block with words buffered, about to answer a DEQ. -/
theorem witness_UnspecifiedStorageIsNeverObserved :
    (let s : State :=
      { onPort .host live [] with
        consumer := ⟨some ⟨0x81000008, [], []⟩, []⟩, events := [.grant .consumer] }
     s.Inv ∧ ∃ t, step s = .next t) :=
  ⟨⟨live_inv, by simp [onPort, State.reset, State.resetAt]⟩, _, rfl⟩

/-- At AW = 3: port H has a CFGR 9 outstanding, above 2^3. -/
def narrow : State 3 :=
  { State.resetAt 3 with host := ⟨some ⟨0x10000000, [.word 9], []⟩, []⟩, events := [.grant .host] }

theorem witness_ErrorsAtEveryAw :
    narrow.events = .grant .host :: [] ∧
    (narrow.port .host).outstanding = some ⟨0x10000000, [.word 9], []⟩ := by decide

theorem witness_EveryStepKeepsTheInvariantAtEveryAw :
    3 ≤ 31 ∧ 31 ≤ 31 ∧ narrow.Inv ∧ ∃ t, narrow.advance = .next t :=
  ⟨by decide, by decide, ⟨Block.Inv.reset _ _, by simp [narrow, State.resetAt]⟩, _, rfl⟩

/-- R8, R102: at AW = 3 a request of 9 is out of range, and one of 8 is the bound, accepted. -/
theorem test_bound_follows_aw :
    (match narrow.advance with | .next t => some t.block.lasterr | _ => none) = some .errRange ∧
    (match execAt (.cfgr 8) (State.resetAt 3) with | .next t => some t.block.cap | _ => none) = some 8 := by
  decide

theorem witness_ForeseeableDrops :
    (onPort .consumer live []).Inv ∧ (∃ t, exec (.deq 2 false) (onPort .consumer live []) = .next t) ∧
    (onPort .producer live []).Inv ∧ (∃ t, exec (.enq [1]) (onPort .producer live []) = .next t) :=
  ⟨onPort_inv live_inv _ _, ⟨_, rfl⟩, onPort_inv live_inv _ _, _, rfl⟩

end Sys2Proof.Tests
end

/-! PROOFS. Scope (00_scope.md): a performed transaction as a function of the block, the port and the command
(R7), and from it the first error (R202), the frame of a failure (R204) and the invariant, at every AW (R8). -/

namespace Sys2Proof.Machine

variable {aw : Nat}

/-! ### Ports where only the inputs of the run differ -/

@[simp] theorem State.port_withEvents (s : State aw) (es : List Event) (p : Port) :
    State.port { s with events := es } p = s.port p := by cases p <;> rfl

@[simp] theorem State.port_withChoices (s : State aw) (k : Nat) (p : Port) :
    State.port { s with choices := k } p = s.port p := by cases p <;> rfl

/-! ### What performing a transaction comes to (R7) -/

/-- The block and the response of a command that raises `code` (R204). -/
def Block.failed (b : Block aw) (code : Code) : Block aw × Response :=
  ({ b with lasterr := code }, ⟨code, 0, []⟩)

/-- The block and the response that an effect leaves. -/
def Effect.result (b : Block aw) : Effect aw → Block aw × Response
  | .done b' data slots => (b', ⟨.ok, data, slots⟩)
  | .fail code => b.failed code

/-- The code that an effect answers with. -/
def Effect.code : Effect aw → Code
  | .done _ _ _ => .ok
  | .fail code => code

/-- The block and the response of command `i` issued by port `p`: R7's function of the block, the port and the
command alone (`execAt_eq_answer`). -/
def commandResult (i : Instr) (p : Port) (b : Block aw) : Block aw × Response :=
  if permitted i.opcode p then (effectOf i b).result b else b.failed .errPort

/-- The block and the response of transaction `c` of port `p`, decoding included (`State.perform_eq_answer`). -/
def performResult (p : Port) (c : Command) (b : Block aw) : Block aw × Response :=
  match decode c.word c.payload with
  | .ok i => commandResult i p b
  | .error _ => b.failed .errIllegal

theorem commandResult_permitted {i : Instr} {p : Port} (b : Block aw) (h : permitted i.opcode p = true) :
    commandResult i p b = (effectOf i b).result b := if_pos h

theorem commandResult_wrongPort {i : Instr} {p : Port} (b : Block aw) (h : permitted i.opcode p = false) :
    commandResult i p b = b.failed .errPort := by simp [commandResult, h]

theorem performResult_ok {p : Port} {c : Command} {i : Instr} (b : Block aw)
    (h : decode c.word c.payload = .ok i) : performResult p c b = commandResult i p b := by
  simp only [performResult, h]

theorem performResult_error {p : Port} {c : Command} {r : Reject} (b : Block aw)
    (h : decode c.word c.payload = .error r) : performResult p c b = b.failed .errIllegal := by
  simp only [performResult, h]

/-- The state that answers the granted transaction with a result. -/
def State.answerWith (s : State aw) (x : Block aw × Response) : State aw :=
  State.answer { s with block := x.1 } x.2

@[simp] theorem State.answerWith_block (s : State aw) (x : Block aw × Response) :
    (s.answerWith x).block = x.1 := rfl

@[simp] theorem State.answerWith_log (s : State aw) (x : Block aw × Response) :
    (s.answerWith x).log = s.logWith x.2 (applySlots s.granted.command.dest x.2.slots) := rfl

theorem State.raise_eq_answerWith (s : State aw) (code : Code) :
    s.raise code = s.answerWith (s.block.failed code) := rfl

theorem execAt_eq_answer (i : Instr) (s : State aw) :
    execAt i s = .next (s.answerWith (commandResult i s.granted.port s.block)) := by
  rw [execAt_eq_command]
  cases hp : permitted i.opcode s.granted.port with
  | false => rw [State.command_wrongPort _ hp, commandResult_wrongPort _ hp, State.raise_eq_answerWith]
  | true =>
    rw [State.command_permitted _ hp, commandResult_permitted _ hp]
    cases effectOf i s.block <;> rfl

theorem State.perform_eq_answer (s : State aw) (p : Port) (c : Command) :
    s.perform p c = .next ((s.accept p c).answerWith (performResult p c s.block)) := by
  cases hd : decode c.word c.payload with
  | ok i => simp [State.perform, hd, execAt_eq_answer, performResult_ok _ hd]
  | error r => simp [State.perform, hd, performResult_error _ hd, State.raise_eq_answerWith]

@[simp] theorem State.logWith_accept (s : State aw) (p : Port) (c : Command) (r : Response) (dst : List Word) :
    (s.accept p c).logWith r dst = s.log ++ [⟨p, c, r, dst⟩] := by
  simp [State.logWith]

/-- A failure of the granted transaction has the frame of R204. -/
theorem State.raise_failsWith (s : State aw) (code : Code) : s.FailsWith (s.raise code) code :=
  ⟨rfl, by simp, rfl, rfl, rfl, rfl, rfl, rfl⟩

/-! ### The code of a result, and what a failing one leaves (R202, R204) -/

@[simp] theorem Effect.result_code (b : Block aw) (e : Effect aw) : (e.result b).2.code = e.code := by
  cases e <;> rfl

/-- A result that is no success has data 0 and no slots, and has changed LASTERR alone. -/
def CleanFailure (b : Block aw) (x : Block aw × Response) : Prop :=
  x.2.code ≠ .ok → x = b.failed x.2.code

theorem Block.cleanFailure_failed (b : Block aw) (code : Code) : CleanFailure b (b.failed code) :=
  fun _ => rfl

theorem Effect.cleanFailure_result (b : Block aw) (e : Effect aw) : CleanFailure b (e.result b) := by
  cases e with
  | done b' data slots => exact fun h => absurd rfl h
  | fail code => exact b.cleanFailure_failed code

theorem commandResult_cleanFailure (i : Instr) (p : Port) (b : Block aw) :
    CleanFailure b (commandResult i p b) := by
  unfold commandResult
  split
  · exact Effect.cleanFailure_result b _
  · exact b.cleanFailure_failed _

theorem performResult_cleanFailure (p : Port) (c : Command) (b : Block aw) :
    CleanFailure b (performResult p c b) := by
  unfold performResult
  split
  · exact commandResult_cleanFailure _ p b
  · exact b.cleanFailure_failed _

theorem Block.construct_code (b : Block aw) (mode : Mode) (request : Nat) (ch sr bt : Word) :
    (b.construct mode request ch sr bt).code =
      if request = 0 then .errCfg else if 2 ^ aw < request then .errRange else .ok := by
  unfold Block.construct
  split
  · rfl
  · split <;> rfl

theorem Block.cfgr_code (b : Block aw) (r : Word) :
    (b.cfgr r).code = if r = 0 then .errCfg else if 2 ^ aw < r.toNat then .errRange else .ok := by
  simp [Block.cfgr, Block.construct_code, ← BitVec.toNat_inj]

/-- The depth calculator's product is 0 exactly where an operand is (R107, R108). -/
theorem depth_eq_zero_iff (ch sr bt : Word) : depth ch sr bt = 0 ↔ ch = 0 ∨ sr = 0 ∨ bt = 0 := by
  simp [depth, ← BitVec.toNat_inj, or_assoc]

theorem Block.cfga_code (b : Block aw) (ch sr bt : Word) :
    (b.cfga ch sr bt).code =
      if ch = 0 ∨ sr = 0 ∨ bt = 0 then .errCfg
      else if 2 ^ aw < depth ch sr bt then .errRange else .ok := by
  unfold Block.cfga
  split
  · next h => rw [if_pos (h.imp_right Or.inl)]; rfl
  · simp only [Block.construct_code, depth_eq_zero_iff]

theorem Block.enq_code (b : Block aw) (src : List Word) :
    (b.enq src).code = if b.cfgd then .ok else .errUnconf := by
  unfold Block.enq; split <;> rfl

theorem Block.enqd_code (b : Block aw) (n : BitVec 24) :
    (b.enqd n).code = if b.cfgd then .ok else .errUnconf := by
  unfold Block.enqd; split <;> rfl

theorem Block.enqb_code (b : Block aw) (raw : List Byte) :
    (b.enqb raw).code = if b.cfgd then .ok else .errUnconf := by
  unfold Block.enqb; split <;> rfl

theorem Block.deq_code (fill : Config.PartialFill) (b : Block aw) (d : BitVec 24) (z : Bool) :
    (b.deq fill d z).code = if b.cfgd then .ok else .errUnconf := by
  unfold Block.deq; split <;> rfl

/-! ### A result keeps the block's invariant -/

/-- A DEQ takes `min(d, COUNT)` words, whichever way its underrun fills the destination. -/
theorem Block.deq_done {fill : Config.PartialFill} {d : BitVec 24} {z : Bool} {b b' : Block aw} {data : Word}
    {slots : List Slot} (h : b.deq fill d z = .done b' data slots) :
    b.cfgd = true ∧ b' = b.pop (min d.toNat b.count.toNat) := by
  unfold Block.deq at h
  split at h
  · next hc => cases h; exact ⟨hc, rfl⟩
  · cases h

theorem Block.Inv.deq {fill : Config.PartialFill} {d : BitVec 24} {z : Bool} {b b' : Block aw} {data : Word}
    {slots : List Slot} (hb : b.Inv) (h : b.deq fill d z = .done b' data slots) : b'.Inv := by
  obtain ⟨hc, rfl⟩ := Block.deq_done h
  exact hb.pop hc (Nat.min_le_right _ _)

theorem Block.Inv.effectOf {i : Instr} {b b' : Block aw} {data : Word} {slots : List Slot} (hb : b.Inv)
    (haw : aw ≤ 31) (h : effectOf i b = .done b' data slots) : b'.Inv := by
  rcases effectOf_done_cases h with
    ⟨mode, p, ch, sr, bt, h1, h2, hring, haudio, -, rfl, -, -⟩ | ⟨hc, -, ws, hw, rfl, -, -⟩ |
    ⟨-, d, z, rfl, -, -, -⟩ | ⟨a, -, rfl, -, -⟩
  · exact Block.Inv.configure b haw h1 h2 hring haudio
  · exact hb.push hc hw
  · exact hb.deq h
  · exact hb

theorem Block.Inv.commandResult {b : Block aw} (hb : b.Inv) (haw : aw ≤ 31) (i : Instr) (p : Port) :
    (commandResult i p b).1.Inv := by
  unfold Machine.commandResult
  split
  · cases he : Machine.effectOf i b with
    | done b' data slots => exact hb.effectOf haw he
    | fail code => exact hb.lasterr code
  · exact hb.lasterr .errPort

theorem Block.Inv.performResult {b : Block aw} (hb : b.Inv) (haw : aw ≤ 31) (p : Port) (c : Command) :
    (performResult p c b).1.Inv := by
  unfold Machine.performResult
  split
  · exact hb.commandResult haw _ p
  · exact hb.lasterr .errIllegal

/-! ### A result is an answer of the form its command has -/

/-- A transaction answered by `r`, its destination buffer as the slots leave it (R167). -/
def Transaction.completed (x : Transaction) (r : Response) : Completion :=
  ⟨x.port, x.command, r, applySlots x.command.dest r.slots⟩

theorem State.answerWith_log_eq (s : State aw) (x : Block aw × Response) :
    (s.answerWith x).log = s.log ++ [s.granted.completed x.2] := rfl

/-- A DEQ of `d` answers `d` slots. -/
@[simp] theorem Block.deqSlots_length (b : Block aw) (fill : Config.PartialFill) (d : Nat) (z : Bool) :
    (b.deqSlots fill d z).length = d := by
  simp [Block.deqSlots]

/-- Which data and slots a successful command answers with (R70). -/
theorem effectOf_done_answer {i : Instr} {b b' : Block aw} {data : Word} {slots : List Slot}
    (h : effectOf i b = .done b' data slots) :
    (i.opcode ≠ .rdreg → data = 0) ∧ (i.opcode ≠ .deq → slots = []) ∧
      (∀ d z, i = .deq d z → slots.length = d.toNat) := by
  rcases effectOf_done_cases h with
    ⟨_, _, _, _, _, -, -, -, -, hop, -, rfl, rfl⟩ | ⟨-, hop, ws, -, -, rfl, rfl⟩ |
    ⟨-, d, z, rfl, -, rfl, rfl⟩ | ⟨a, rfl, -, rfl, rfl⟩
  · refine ⟨fun _ => rfl, fun _ => rfl, ?_⟩
    rintro d z rfl
    simp [Instr.opcode] at hop
  · refine ⟨fun _ => rfl, fun _ => rfl, ?_⟩
    rintro d z rfl
    simp [Instr.opcode] at hop
  · refine ⟨fun _ => rfl, fun hop => absurd rfl hop, ?_⟩
    rintro d' z' ⟨rfl, rfl⟩
    exact Block.deqSlots_length ..
  · exact ⟨fun hop => absurd rfl hop, fun _ => rfl, nofun⟩

/-- A transaction that is no command is well answered by ERR_ILLEGAL (R79). -/
theorem wellAnswered_illegal {x : Transaction} {r : Reject}
    (hd : decode x.command.word x.command.payload = .error r) :
    (x.completed ⟨.errIllegal, 0, []⟩).WellAnswered where
  failed _ := ⟨rfl, rfl⟩
  illegal _ _ := rfl
  legal i hi := by cases hd.symm.trans hi
  data _ _ _ := rfl
  slots _ _ _ := rfl
  deqSlots _ _ _ := nofun
  dest := rfl

/-- A command is well answered by an error of its own, ERR_PORT being the answer exactly on the wrong port (R210). -/
theorem wellAnswered_fail {x : Transaction} {i : Instr} {code : Code}
    (hd : decode x.command.word x.command.payload = .ok i) (hok : code ≠ .ok) (hill : code ≠ .errIllegal)
    (hport : code = .errPort ↔ permitted i.opcode x.port = false) :
    (x.completed ⟨code, 0, []⟩).WellAnswered where
  failed _ := ⟨rfl, rfl⟩
  illegal r hr := by cases hd.symm.trans hr
  legal j hj := by cases hd.symm.trans hj; exact ⟨hill, hport⟩
  data _ _ _ := rfl
  slots _ _ _ := rfl
  deqSlots _ _ _ h := absurd h hok
  dest := rfl

/-- A command on its port is well answered by what its effect succeeds with. -/
theorem wellAnswered_done {x : Transaction} {i : Instr} {b b' : Block aw} {data : Word} {slots : List Slot}
    (hd : decode x.command.word x.command.payload = .ok i) (hp : permitted i.opcode x.port = true)
    (he : effectOf i b = .done b' data slots) :
    (x.completed ⟨.ok, data, slots⟩).WellAnswered := by
  obtain ⟨hdata, hslots, hlen⟩ := effectOf_done_answer he
  exact
    { failed := fun h => absurd rfl h
      illegal := fun r hr => by cases hd.symm.trans hr
      legal := fun j hj => by
        cases hd.symm.trans hj
        exact ⟨nofun, nofun, fun hn => absurd (hp.symm.trans hn) nofun⟩
      data := fun j hj => by cases hd.symm.trans hj; exact hdata
      slots := fun j hj => by cases hd.symm.trans hj; exact hslots
      deqSlots := fun d z hj _ => by cases hd.symm.trans hj; exact hlen d z rfl
      dest := rfl }

theorem commandResult_wellAnswered {x : Transaction} {i : Instr}
    (hd : decode x.command.word x.command.payload = .ok i) (b : Block aw) :
    (x.completed (commandResult i x.port b).2).WellAnswered := by
  cases hp : permitted i.opcode x.port with
  | false =>
    rw [commandResult_wrongPort b hp]
    exact wellAnswered_fail hd nofun nofun (by simp [hp])
  | true =>
    rw [commandResult_permitted b hp]
    cases he : effectOf i b with
    | done b' data slots => exact wellAnswered_done hd hp he
    | fail code =>
      rcases effectOf_fail_cases he with rfl | rfl | rfl <;>
        exact wellAnswered_fail hd nofun nofun (by simp [hp])

theorem performResult_wellAnswered (x : Transaction) (b : Block aw) :
    (x.completed (performResult x.port x.command b).2).WellAnswered := by
  cases hd : decode x.command.word x.command.payload with
  | ok i => rw [performResult_ok b hd]; exact commandResult_wellAnswered hd b
  | error r => rw [performResult_error b hd]; exact wellAnswered_illegal hd

/-! ### Every step keeps the invariant of the machine -/

theorem State.Inv.resetAt (aw : Nat) : (State.resetAt aw).Inv :=
  ⟨Block.Inv.reset aw 0, by simp⟩

/-- The invariant speaks of the block and the log alone. -/
theorem State.Inv.of_eq {s t : State aw} (h : s.Inv) (hb : t.block = s.block) (hl : t.log = s.log) : t.Inv :=
  ⟨hb ▸ h.block, hl ▸ h.log⟩

theorem State.Inv.hardReset {s : State aw} (h : s.Inv) : s.hardReset.Inv :=
  ⟨Block.Inv.reset aw _, h.log⟩

theorem State.Inv.answerWith {s : State aw} (h : s.Inv) {x : Block aw × Response} (hb : x.1.Inv)
    (hx : (s.granted.completed x.2).WellAnswered) : (s.answerWith x).Inv where
  block := hb
  log := by
    rw [State.answerWith_log_eq]
    exact List.forall_mem_append.2 ⟨h.log, List.forall_mem_singleton.2 hx⟩

theorem State.Inv.accept {s : State aw} (h : s.Inv) (p : Port) (c : Command) : (s.accept p c).Inv :=
  h.of_eq (by simp) (by simp)

theorem State.Inv.perform {s t : State aw} (h : s.Inv) (haw : aw ≤ 31) {p : Port} {c : Command}
    (ht : s.perform p c = .next t) : t.Inv := by
  rw [State.perform_eq_answer] at ht
  cases ht
  exact (h.accept p c).answerWith (h.block.performResult haw p c) (performResult_wellAnswered ⟨p, c⟩ s.block)

theorem State.happen_grant {s : State aw} {p : Port} {c : Command} (hc : (s.port p).outstanding = some c) :
    s.happen (.grant p) = s.perform p c := by
  simp only [State.happen, hc]

theorem State.Inv.happen {s t : State aw} (h : s.Inv) (haw : aw ≤ 31) {e : Event}
    (ht : s.happen e = .next t) : t.Inv := by
  rcases State.happen_cases ht with
    ⟨p, -, ⟨-, rfl⟩ | ⟨c, cs, -, -, rfl⟩⟩ | ⟨p, rfl, ⟨-, rfl⟩ | ⟨c, hc, -⟩⟩ | ⟨-, rfl⟩
  · exact h
  · exact h.of_eq (by simp) (by simp)
  · exact h
  · exact h.perform haw (State.happen_grant hc ▸ ht)
  · exact h.hardReset

theorem State.Inv.advance {s t : State aw} (h : s.Inv) (haw : aw ≤ 31) (ht : s.advance = .next t) : t.Inv := by
  rcases State.advance_cases ht with ⟨e, es, -, ht⟩ | ⟨-, -, rfl⟩ | ⟨-, e, k, -, ht⟩
  · exact State.Inv.happen (s := { s with events := es }) (h.of_eq rfl rfl) haw ht
  · exact h
  · exact State.Inv.happen (s := { s with choices := k }) (h.of_eq rfl rfl) haw ht

/-! ### The statements of 00_scope.md -/

/-- Settles O60: the block's invariant goes through `performResult`, and the completion it adds to the log is well
answered. -/
theorem everyStepKeepsTheInvariantAtEveryAw : Obligations.EveryStepKeepsTheInvariantAtEveryAw :=
  fun aw haw => ⟨State.Inv.resetAt aw, fun _ _ h ht => h.advance haw ht⟩

/-- Settles O13: an open step that answers something is the grant of an outstanding transaction. -/
theorem openStepsRunTheDecodedCommand : Obligations.OpenStepsRunTheDecodedCommand := by
  intro s t hev hstep hlog
  rcases step_cases hstep with ⟨e, es, he, -⟩ | ⟨-, -, rfl⟩ | ⟨-, e, k, -, ht⟩
  · simp [hev] at he
  · exact absurd rfl hlog
  rcases State.happen_cases ht with
    ⟨p, -, ⟨-, rfl⟩ | ⟨c, cs, -, -, rfl⟩⟩ | ⟨p, -, ⟨-, rfl⟩ | ⟨c, hc, hrun⟩⟩ | ⟨-, rfl⟩
  · exact absurd rfl hlog
  · exact absurd (State.setPort_log ..) hlog
  · exact absurd rfl hlog
  · refine ⟨p, c, State.accept { s with choices := k } p c, by simpa using hc, rfl, by simp, by simp, by simp,
      by simp, fun q hq => by simp [hq], fun i hi => ?_, fun r hr => ?_⟩
    · rcases hrun with ⟨j, hj, hexec⟩ | ⟨r, hr, -⟩
      · cases hi.symm.trans hj
        rw [hstep, exec_eq_execAt, hexec]
      · cases hi.symm.trans hr
    · rcases hrun with ⟨j, hj, -⟩ | ⟨-, -, rfl⟩
      · cases hr.symm.trans hj
      · exact State.raise_failsWith _ _
  · exact absurd rfl hlog

/-- Settles O17: `commandResult` is the function. -/
theorem execIsAFunctionOfBlockPortAndCommand : Obligations.ExecIsAFunctionOfBlockPortAndCommand := by
  intro i s s' t t' hblock hport ht ht'
  rw [exec_eq_execAt, execAt_eq_answer] at ht ht'
  cases ht
  cases ht'
  rw [hblock, hport]
  exact ⟨rfl, _, _, _, rfl, rfl⟩

/-- Settles O30. -/
theorem nextPow2IsTheSmallest : Obligations.NextPow2IsTheSmallest :=
  fun r _ => ⟨nextPow2_pow r, le_nextPow2 r, fun _ hk => nextPow2_le_pow hk⟩

/-- Settles O54: six of the effects are `effectOf`'s; a DEQ moves the cursors alike under both fills. -/
theorem effectsKeepTheInvariantForEveryAw : Obligations.EffectsKeepTheInvariantForEveryAw := by
  intro aw fill b b' data slots haw hb heff
  rcases heff with ⟨r, h⟩ | ⟨ch, sr, bt, h⟩ | ⟨src, h⟩ | ⟨n, h⟩ | ⟨raw, h⟩ | ⟨d, z, h⟩ | ⟨a, h⟩
  · exact hb.effectOf (i := .cfgr r) haw h
  · exact hb.effectOf (i := .cfga ch sr bt) haw h
  · exact hb.effectOf (i := .enq src) haw h
  · exact hb.effectOf (i := .enqd n) haw h
  · exact hb.effectOf (i := .enqb raw) haw h
  · exact hb.deq h
  · exact hb.effectOf (i := .rdreg a) haw h

/-- Settles O59: the response is `performResult`'s, whose failures are clean, and whose code is that of the decoder,
the port check or the effect, in this order. -/
theorem errorsAtEveryAw : Obligations.ErrorsAtEveryAw := by
  intro aw s p c es hev hc
  refine ⟨_, (performResult p c s.block).2, _, (State.advance_grant hev hc).trans (State.perform_eq_answer _ p c),
    State.logWith_accept .., fun hfail => ?_, ?_⟩
  · have hclean := performResult_cleanFailure p c s.block hfail
    rw [State.answerWith_block, hclean]
    exact ⟨rfl, rfl, applySlots_nil _, rfl⟩
  · cases hd : decode c.word c.payload with
    | error r => rw [performResult_error _ hd]; rfl
    | ok i =>
      rw [performResult_ok _ hd]
      cases hp : permitted i.opcode p with
      | false => rw [commandResult_wrongPort _ hp]; simp [Block.failed, hp]
      | true =>
        rw [commandResult_permitted _ hp, Effect.result_code]
        simp only [hp, Bool.true_eq_false, if_false]
        cases i with
        | cfgr v => exact Block.cfgr_code _ v
        | cfga ch sr bt => exact Block.cfga_code _ ch sr bt
        | enq src => exact Block.enq_code _ src
        | enqd n => exact Block.enqd_code _ n
        | enqb raw => exact Block.enqb_code _ raw
        | deq d z => exact Block.deq_code _ _ d z
        | rdreg a => rfl

/-- Settles O12: the state is the one in which the arbiter has accepted the transaction. -/
theorem stepRunsTheDecodedCommand : Obligations.StepRunsTheDecodedCommand := by
  intro s p c es i hev hc hd
  exact ⟨State.accept { s with events := es } p c, (State.advance_grant hev hc).trans (State.perform_ok hd), rfl,
    by simp, by simp, by simp, by simp, by simp, by simp, fun q hq => by simp [hq]⟩

/-- Settles O58. -/
theorem thisHardwareIsTheMachineAtItsAw : Obligations.ThisHardwareIsTheMachineAtItsAw :=
  ⟨exec_eq_execAt, fun _ => rfl, rfl, rfl⟩

end Sys2Proof.Machine

/-! PROOFS. State (10_state.md): the block as a bounded queue (R24), the unspecified storage that no command
observes (R22), what a configuration replaces (R26, R27), and the registers of R31 and R32. -/

namespace Sys2Proof.Machine

variable {aw : Nat}

/-! ### The queue through each effect (R24) -/

/-- A command guarded by CFGD succeeds only where it holds, and then with its one outcome. -/
theorem Effect.done_of_guard {c : Bool} {code : Code} {b b' : Block aw} {x data : Word} {l slots : List Slot}
    (h : (if c then Effect.done b x l else .fail code) = .done b' data slots) :
    c = true ∧ b' = b ∧ data = x ∧ slots = l := by
  cases c with
  | false => cases h
  | true => cases h; exact ⟨rfl, rfl, rfl, rfl⟩

theorem Block.construct_done {b b' : Block aw} {mode : Mode} {p : Nat} {ch sr bt data : Word} {slots : List Slot}
    (h : b.construct mode p ch sr bt = .done b' data slots) : b' = b.configure mode p ch sr bt := by
  unfold Block.construct at h
  split at h
  · cases h
  · split at h
    · cases h
    · cases h; rfl

theorem Block.cfga_done {b b' : Block aw} {ch sr bt data : Word} {slots : List Slot}
    (h : b.cfga ch sr bt = .done b' data slots) : b' = b.configure .audio (depth ch sr bt) ch sr bt := by
  unfold Block.cfga at h
  split at h
  · cases h
  · exact Block.construct_done h

@[simp] theorem Block.contents_configure (b : Block aw) (mode : Mode) (p : Nat) (ch sr bt : Word) :
    (b.configure mode p ch sr bt).contents = [] :=
  List.eq_nil_of_length_eq_zero (by simp)

/-- A command that buffers the first `FREE` words of `ws` appends what the bound leaves room for (R131). -/
theorem Block.Inv.contents_push_take {b : Block aw} (hb : b.Inv) (hc : b.cfgd = true) (ws : List Word) :
    (b.push (ws.take (min ws.length b.free))).contents =
      b.contents ++ ws.take (b.cap.toNat - b.contents.length) := by
  rw [(hb.configured hc).contents_push (by simp), Block.contents_length, min_comm, ← List.take_eq_take_min]
  rfl

/-- The slots a DEQ answers for buffered words are the oldest words (R160). -/
theorem Block.deqSlots_take (b : Block aw) (fill : Config.PartialFill) (d : Nat) (z : Bool) :
    (b.deqSlots fill d z).take b.contents.length = (b.contents.take d).map .write := by
  rw [Block.deqSlots, b.readRing_head (Nat.min_le_right ..), ← b.contents_length]
  rcases le_total d b.contents.length with h | h <;> simp [h, -Block.contents_length]

/-- Settles O55: a configuration, a push and a pop each do to `contents` what the queue's operation does. -/
theorem blockRefinesABoundedQueue : Obligations.BlockRefinesABoundedQueue := by
  intro aw fill b b' data slots _ hb
  refine ⟨b.contents_length, fun r h => ?_, fun ch sr bt h => ?_, fun src h => ?_, fun n h => ?_, fun raw h => ?_,
    fun d z h => ?_, fun a h => ?_⟩
  · rw [Block.construct_done h, Block.contents_configure]
  · rw [Block.cfga_done h, Block.contents_configure]
  · obtain ⟨hc, rfl, -, -⟩ := Effect.done_of_guard h
    exact hb.contents_push_take hc src
  · obtain ⟨hc, rfl, -, -⟩ := Effect.done_of_guard h
    rw [(hb.configured hc).contents_push (by simp), Block.contents_length]
    rfl
  · obtain ⟨hc, rfl, -, -⟩ := Effect.done_of_guard h
    rw [← wordsOfBytes_length]
    exact hb.contents_push_take hc _
  · obtain ⟨hc, rfl, -, rfl⟩ := Effect.done_of_guard h
    refine ⟨?_, b.deqSlots_take fill _ z, b.deqSlots_length fill _ z⟩
    rw [(hb.configured hc).contents_pop, ← b.contents_length]
    simp
  · cases h; rfl

/-! ### Another draw of the unspecified storage (R22) -/

/-- The machine with another draw of unspecified storage contents. -/
def State.withDraw (s : State aw) (d : Nat) : State aw := { s with block := s.block.withDraw d }

@[simp] theorem State.withDraw_block (s : State aw) (d : Nat) : (s.withDraw d).block = s.block.withDraw d := rfl

@[simp] theorem State.withDraw_events (s : State aw) (d : Nat) : (s.withDraw d).events = s.events := rfl

@[simp] theorem State.withDraw_port (s : State aw) (d : Nat) (p : Port) : (s.withDraw d).port p = s.port p := by
  cases p <;> rfl

@[simp] theorem State.withDraw_enabled (s : State aw) (d : Nat) : (s.withDraw d).enabled = s.enabled := rfl

theorem State.withDraw_setPort (s : State aw) (d : Nat) (p : Port) (ps : PortState) :
    (s.withDraw d).setPort p ps = (s.setPort p ps).withDraw d := by cases p <;> rfl

theorem State.withDraw_accept (s : State aw) (d : Nat) (p : Port) (c : Command) :
    (s.withDraw d).accept p c = (s.accept p c).withDraw d := by cases p <;> rfl

@[simp] theorem Block.withDraw_register (b : Block aw) (d : Nat) (a : Reg) :
    (b.withDraw d).register a = b.register a := by cases a <;> rfl

/-- The words a DEQ reads stand in the live window, whose every slot a command wrote. -/
theorem Block.Configured.readRing_withDraw {b : Block aw} (h : b.Configured) (d : Nat) {n : Nat}
    (hn : n ≤ b.count.toNat) : (b.withDraw d).readRing b.head.toNat n = b.readRing b.head.toNat n := by
  apply List.ext_getElem
  · simp
  · intro i hi _
    have hlive := h.live i (lt_of_lt_of_le (by simpa using hi) hn)
    obtain ⟨w, hw⟩ := Option.isSome_iff_exists.1 hlive
    simp [Block.readRing_getElem, Block.readSlot, hw]

/-- A guard by CFGD does not see the draw. -/
theorem Effect.withDraw_guard (c : Bool) (code : Code) (b : Block aw) (data : Word) (slots : List Slot) (d : Nat) :
    (if c then Effect.done b data slots else .fail code).withDraw d =
      if c then .done (b.withDraw d) data slots else .fail code := by
  cases c <;> rfl

theorem Block.construct_withDraw (b : Block aw) (d : Nat) (mode : Mode) (p : Nat) (ch sr bt : Word) :
    (b.withDraw d).construct mode p ch sr bt = (b.construct mode p ch sr bt).withDraw (d + 1) := by
  unfold Block.construct
  split
  · rfl
  · split <;> rfl

theorem Block.Inv.deq_withDraw {b : Block aw} (hb : b.Inv) (d : Nat) (fill : Config.PartialFill)
    (n : BitVec 24) (z : Bool) : (b.withDraw d).deq fill n z = (b.deq fill n z).withDraw d := by
  cases hc : b.cfgd with
  | false => simp [Block.deq, hc, Effect.withDraw]
  | true =>
    have hread := (hb.configured hc).readRing_withDraw d (Nat.min_le_right n.toNat b.count.toNat)
    simp only [Block.deq, Block.deqSlots, Block.withDraw_cfgd, Block.withDraw_head, Block.withDraw_count, hc, hread]
    rfl

/-- An effect answers the same whatever the draw, which a configuration counts on and every other one keeps. -/
theorem effectOf_withDraw {b : Block aw} (hb : b.Inv) (i : Instr) (d : Nat) :
    ∃ d', effectOf i (b.withDraw d) = (effectOf i b).withDraw d' := by
  cases i with
  | cfgr r => exact ⟨d + 1, b.construct_withDraw d _ _ _ _ _⟩
  | cfga ch sr bt =>
    refine ⟨d + 1, ?_⟩
    simp only [effectOf, Block.cfga]
    split
    · rfl
    · exact b.construct_withDraw d _ _ _ _ _
  | enq src => exact ⟨d, (Effect.withDraw_guard b.cfgd _ (b.push _) _ _ d).symm⟩
  | enqd n => exact ⟨d, (Effect.withDraw_guard b.cfgd _ (b.push _) _ _ d).symm⟩
  | enqb raw => exact ⟨d, (Effect.withDraw_guard b.cfgd _ (b.push _) _ _ d).symm⟩
  | deq n z => exact ⟨d, hb.deq_withDraw d _ n z⟩
  | rdreg a => exact ⟨d, congrArg (Effect.done _ · _) (b.withDraw_register d a)⟩

/-- The block and the response of a transaction, with another draw in the block. -/
def withDrawResult (x : Block aw × Response) (d : Nat) : Block aw × Response := (x.1.withDraw d, x.2)

theorem Effect.result_withDraw (b : Block aw) (e : Effect aw) (d d' : Nat) :
    ∃ d'', (e.withDraw d').result (b.withDraw d) = withDrawResult (e.result b) d'' := by
  cases e with
  | done b' data slots => exact ⟨d', rfl⟩
  | fail code => exact ⟨d, rfl⟩

theorem commandResult_withDraw {b : Block aw} (hb : b.Inv) (i : Instr) (p : Port) (d : Nat) :
    ∃ d', commandResult i p (b.withDraw d) = withDrawResult (commandResult i p b) d' := by
  cases hp : permitted i.opcode p with
  | false => rw [commandResult_wrongPort _ hp, commandResult_wrongPort _ hp]; exact ⟨d, rfl⟩
  | true =>
    obtain ⟨d', he⟩ := effectOf_withDraw hb i d
    rw [commandResult_permitted _ hp, commandResult_permitted _ hp, he]
    exact Effect.result_withDraw b _ d d'

theorem performResult_withDraw {b : Block aw} (hb : b.Inv) (p : Port) (c : Command) (d : Nat) :
    ∃ d', performResult p c (b.withDraw d) = withDrawResult (performResult p c b) d' := by
  cases hd : decode c.word c.payload with
  | ok i => rw [performResult_ok _ hd, performResult_ok _ hd]; exact commandResult_withDraw hb i p d
  | error r => rw [performResult_error _ hd, performResult_error _ hd]; exact ⟨d, rfl⟩

theorem State.perform_withDraw {s t : State aw} (hb : s.block.Inv) (d : Nat) {p : Port} {c : Command}
    (h : s.perform p c = .next t) : ∃ d', (s.withDraw d).perform p c = .next (t.withDraw d') := by
  obtain ⟨d', hd'⟩ := performResult_withDraw hb p c d
  rw [State.perform_eq_answer] at h ⊢
  cases h
  rw [State.withDraw_accept, State.withDraw_block, hd']
  exact ⟨d', rfl⟩

theorem State.happen_withDraw {s t : State aw} (hb : s.block.Inv) (d : Nat) {e : Event}
    (h : s.happen e = .next t) : ∃ d', (s.withDraw d).happen e = .next (t.withDraw d') := by
  rcases State.happen_cases h with
    ⟨p, rfl, ⟨hu, rfl⟩ | ⟨c, cs, hu, ho, rfl⟩⟩ | ⟨p, rfl, ⟨ho, rfl⟩ | ⟨c, ho, -⟩⟩ | ⟨rfl, rfl⟩
  · exact ⟨d, by simp [State.happen, State.issue, hu]⟩
  · exact ⟨d, by simp [State.happen, State.issue, hu, ho, State.withDraw_setPort]⟩
  · exact ⟨d, by simp [State.happen, ho]⟩
  · rw [State.happen_grant ho] at h
    rw [State.happen_grant (by simpa using ho)]
    exact State.perform_withDraw hb d h
  · exact ⟨d + 1, rfl⟩

theorem State.advance_withDraw {s t : State aw} (hb : s.block.Inv) (d : Nat) (h : s.advance = .next t) :
    ∃ d', (s.withDraw d).advance = .next (t.withDraw d') := by
  unfold State.advance at h ⊢
  rw [State.withDraw_events]
  split at h
  · unfold State.proceed at h ⊢
    rw [State.withDraw_enabled]
    split at h
    · cases h; exact ⟨d, rfl⟩
    · exact State.happen_withDraw hb d h
    · exact State.happen_withDraw (s := { s with choices := s.choices + 1 }) hb d h
  · next e es _ => exact State.happen_withDraw (s := { s with events := es }) hb d h

/-- Settles O56: a command reads storage in the live window alone, so a step goes with another draw as it goes. -/
theorem unspecifiedStorageIsNeverObserved : Obligations.UnspecifiedStorageIsNeverObserved := by
  intro s t d hs ht
  obtain ⟨d', h⟩ := State.advance_withDraw hs.block d ht
  exact ⟨_, d', h, rfl⟩

/-! ### What changes the configured fields (R26, R27) -/

theorem Block.SameInstance.refl (b : Block aw) : b.SameInstance b := ⟨rfl, rfl, rfl, rfl, rfl, rfl, rfl, rfl⟩

theorem Block.sameInstance_failed (b : Block aw) (code : Code) : b.SameInstance (b.failed code).1 :=
  ⟨rfl, rfl, rfl, rfl, rfl, rfl, rfl, rfl⟩

theorem Block.sameInstance_push (b : Block aw) (ws : List Word) : b.SameInstance (b.push ws) :=
  ⟨rfl, rfl, rfl, rfl, rfl, rfl, rfl, rfl⟩

theorem Block.sameInstance_pop (b : Block aw) (n : Nat) : b.SameInstance (b.pop n) :=
  ⟨rfl, rfl, rfl, rfl, rfl, rfl, rfl, rfl⟩

/-- A successful command keeps the configured fields, or is a configuration, which sets CFGD. -/
theorem effectOf_sameInstance {i : Instr} {b b' : Block aw} {data : Word} {slots : List Slot}
    (h : effectOf i b = .done b' data slots) :
    b.SameInstance b' ∨ (b'.cfgd = true ∧ (i.opcode = .cfgr ∨ i.opcode = .cfga)) := by
  rcases effectOf_done_cases h with
    ⟨mode, p, ch, sr, bt, -, -, -, -, hop, rfl, -⟩ | ⟨-, -, ws, -, rfl, -⟩ | ⟨-, d, z, -, rfl, -⟩ | ⟨a, -, rfl, -⟩
  · exact .inr ⟨rfl, hop⟩
  · exact .inl (b.sameInstance_push ws)
  · exact .inl (b.sameInstance_pop _)
  · exact .inl (.refl b')

/-- A transaction keeps the configured fields, or it is a configuration that answers OK. -/
theorem performResult_sameInstance (p : Port) (c : Command) (b : Block aw) :
    b.SameInstance (performResult p c b).1 ∨
      ((performResult p c b).1.cfgd = true ∧ (performResult p c b).2.code = .ok ∧
        ∃ i, decode c.word c.payload = .ok i ∧ (i.opcode = .cfgr ∨ i.opcode = .cfga)) := by
  cases hd : decode c.word c.payload with
  | error r => rw [performResult_error b hd]; exact .inl (b.sameInstance_failed _)
  | ok i =>
    rw [performResult_ok b hd]
    cases hp : permitted i.opcode p with
    | false => rw [commandResult_wrongPort b hp]; exact .inl (b.sameInstance_failed _)
    | true =>
      rw [commandResult_permitted b hp]
      cases he : effectOf i b with
      | fail code => exact .inl (b.sameInstance_failed code)
      | done b' data slots =>
        exact (effectOf_sameInstance he).imp_right fun ⟨hc, hop⟩ => ⟨hc, rfl, i, rfl, hop⟩

/-- An event other than a reset keeps the block, or performs an outstanding transaction. -/
theorem State.happen_block {s t : State aw} {e : Event} (h : s.happen e = .next t) (he : e ≠ .reset) :
    t.block = s.block ∨ ∃ p c, t = (s.accept p c).answerWith (performResult p c s.block) := by
  rcases State.happen_cases h with
    ⟨p, -, ⟨-, rfl⟩ | ⟨c, cs, -, -, rfl⟩⟩ | ⟨p, rfl, ⟨-, rfl⟩ | ⟨c, ho, -⟩⟩ | ⟨rfl, -⟩
  · exact .inl rfl
  · exact .inl (State.setPort_block ..)
  · exact .inl rfl
  · rw [State.happen_grant ho, State.perform_eq_answer] at h
    cases h
    exact .inr ⟨p, c, rfl⟩
  · exact absurd rfl he

/-- What R26 says of the change from one state to another: the configured fields stay, or it is the OK answer to a
configuration, which leaves the block configured. -/
def State.KeepsInstance (s t : State aw) : Prop :=
  s.block.SameInstance t.block ∨
    (t.block.cfgd = true ∧ ∃ (c : Completion) (i : Instr), t.log = s.log ++ [c] ∧ c.response.code = .ok ∧
      decode c.command.word c.command.payload = .ok i ∧ (i.opcode = .cfgr ∨ i.opcode = .cfga))

theorem State.keepsInstance_of_block_eq {s t : State aw} (h : t.block = s.block) : s.KeepsInstance t :=
  .inl (h ▸ .refl _)

theorem State.happen_keepsInstance {s t : State aw} {e : Event} (h : s.happen e = .next t) (he : e ≠ .reset) :
    s.KeepsInstance t := by
  rcases State.happen_block h he with hb | ⟨p, c, rfl⟩
  · exact State.keepsInstance_of_block_eq hb
  · exact (performResult_sameInstance p c s.block).imp_right fun ⟨hc, hok, i, hd, hop⟩ =>
      ⟨hc, _, i, State.logWith_accept .., hok, hd, hop⟩

/-- What may happen of itself is no reset. -/
theorem State.ne_reset_of_mem_enabled {s : State aw} {e : Event} (h : e ∈ s.enabled) : e ≠ .reset := by
  rcases State.mem_enabled h with ⟨p, c, rfl, -⟩ | ⟨p, c, cs, rfl, -⟩ <;> nofun

theorem State.advance_keepsInstance {s t : State aw} (h : s.advance = .next t) (hr : s.noReset) :
    s.KeepsInstance t := by
  rcases State.advance_cases h with ⟨e, es, hev, ht⟩ | ⟨-, -, rfl⟩ | ⟨-, e, k, he, ht⟩
  · exact State.happen_keepsInstance (s := { s with events := es }) ht (by simpa [State.noReset, hev] using hr)
  · exact State.keepsInstance_of_block_eq rfl
  · exact State.happen_keepsInstance (s := { s with choices := k }) ht (State.ne_reset_of_mem_enabled he)

/-- Settles O33: CAP and CFGD are among the fields that only a configuration changes. -/
theorem onlyConfigurationChangesCap : Obligations.OnlyConfigurationChangesCap :=
  fun _ _ ht hr => (State.advance_keepsInstance ht hr).imp_left fun h => ⟨h.cap_eq, h.cfgd_eq⟩

/-- Settles O32: both blocks become `Block.configure` of the operands. -/
theorem configurationReplacesTheInstance : Obligations.ConfigurationReplacesTheInstance := by
  rintro aw a b a' b' r ch sr bt x x' l l' (⟨ha, hb⟩ | ⟨ha, hb⟩)
  · obtain rfl := Block.construct_done ha
    obtain rfl := Block.construct_done hb
    exact ⟨rfl, rfl, rfl⟩
  · obtain rfl := Block.cfga_done ha
    obtain rfl := Block.cfga_done hb
    exact ⟨rfl, rfl, rfl⟩

/-! ### The registers (R21, R25, R31, R32) -/

theorem Block.Unconfigured.register_eq {b : Block aw} (h : b.Unconfigured) {a : Reg} (ha : a ≠ .status) :
    b.register a = 0 := by
  cases a with
  | status => exact absurd rfl ha
  | capacity => simp [Block.register, h.cap_eq]
  | count => simp [Block.register, h.count_eq]
  | free => simp [Block.register, Block.free, h.cap_eq]
  | head => simp [Block.register, h.head_eq]
  | tail => simp [Block.register, h.tail_eq]
  | channels => exact h.channels_eq
  | rate => exact h.rate_eq
  | buftime => exact h.buftime_eq
  | reqcap => exact h.reqcap_eq

/-- While CFGD is 0 STATUS shows LASTERR alone. -/
theorem Block.Unconfigured.status_eq {b : Block aw} (h : b.Unconfigured) (hc : b.cfgd = false) :
    b.status = b.lasterr.bits.setWidth 32 <<< 8 := by
  simp only [Block.status, Block.full, Block.empty, hc, h.mode_eq, Bool.false_and]
  cases b.lasterr <;> rfl

/-- Settles O51. -/
theorem unconfiguredRegistersReadZero : Obligations.UnconfiguredRegistersReadZero := by
  intro b hb hc
  have h := hb.unconfigured hc
  exact ⟨fun _ => h.register_eq, h.status_eq hc⟩

/-- Settles O1: the registers read as those of an unconfigured block whose LASTERR is OK. -/
theorem resetLeavesTheSpecifiedState : Obligations.ResetLeavesTheSpecifiedState := by
  obtain ⟨hreg, hstatus⟩ := unconfiguredRegistersReadZero State.reset.block (.reset _ 0) rfl
  refine ⟨rfl, rfl, rfl, rfl, rfl, rfl, rfl, rfl, rfl, rfl, rfl, fun _ => rfl, fun a => ?_⟩
  by_cases ha : a = .status
  · subst ha; exact hstatus
  · exact hreg a ha

/-- Settles O2. -/
theorem resetMeetsTheInvariant : Obligations.ResetMeetsTheInvariant := State.Inv.resetAt Config.aw

theorem Block.Inv.count_le {b : Block aw} (h : b.Inv) : b.count.toNat ≤ b.cap.toNat := by
  cases hc : b.cfgd with
  | true => exact (h.configured hc).count_le
  | false => simp [(h.unconfigured hc).count_eq]

/-- Settles O52: COUNT is at most CAP, and AW + 1 bits fit a register. -/
theorem countPlusFreeIsCapacity : Obligations.CountPlusFreeIsCapacity := by
  intro b hb
  have hle := hb.count_le
  have hcap : b.cap.toNat < 2 ^ 25 := b.cap.isLt
  simp only [Block.register, Block.free, BitVec.toNat_setWidth, BitVec.toNat_ofNat]
  omega

theorem Block.status_getLsbD_zero (b : Block aw) : b.status.getLsbD 0 = b.cfgd := by
  simp only [Block.status, BitVec.getLsbD_setWidth, BitVec.getLsbD_append]
  simp

theorem Block.status_getLsbD_one (b : Block aw) : b.status.getLsbD 1 = b.mode.bit.getLsbD 0 := by
  simp only [Block.status, BitVec.getLsbD_setWidth, BitVec.getLsbD_append]
  simp

theorem Block.status_getLsbD_two (b : Block aw) : b.status.getLsbD 2 = b.empty := by
  simp only [Block.status, BitVec.getLsbD_setWidth, BitVec.getLsbD_append]
  simp

theorem Block.status_getLsbD_three (b : Block aw) : b.status.getLsbD 3 = b.full := by
  simp only [Block.status, BitVec.getLsbD_setWidth, BitVec.getLsbD_append]
  simp

/-- From bit 4 on STATUS holds four zeros, LASTERR, and zeros. -/
theorem Block.status_getLsbD_high (b : Block aw) {i : Nat} (h4 : 4 ≤ i) :
    b.status.getLsbD i = if i < 8 then false else b.lasterr.bits.getLsbD (i - 8) := by
  obtain ⟨k, rfl⟩ := Nat.exists_eq_add_of_le' h4
  simp only [Block.status, BitVec.getLsbD_setWidth, BitVec.getLsbD_append]
  by_cases hk : k < 4
  · simp [hk]
  · by_cases hk8 : k < 8
    · simp [hk, show k + 4 < 32 by omega, show ¬k + 4 < 8 by omega]
    · simp [hk, BitVec.getLsbD_of_ge b.lasterr.bits (k - 4) (by omega)]

theorem Mode.bit_getLsbD_zero (m : Mode) : m.bit.getLsbD 0 = true ↔ m = .audio := by
  cases m <;> decide

/-- Settles O50. -/
theorem statusFields : Obligations.StatusFields := by
  intro aw b
  refine ⟨?_, ?_, ?_, ?_, ?_, ?_, ?_⟩
  · rw [Block.status_getLsbD_zero]
  · rw [Block.status_getLsbD_one, Mode.bit_getLsbD_zero]
  · rw [Block.status_getLsbD_two]; simp [Block.empty]
  · rw [Block.status_getLsbD_three]; simp [Block.full]
  · ext i hi
    rw [BitVec.getElem_extractLsb', b.status_getLsbD_high (by omega), if_pos (by omega)]
    simp
  · ext i hi
    rw [BitVec.getElem_extractLsb', b.status_getLsbD_high (by omega), if_neg (by omega), Nat.add_sub_cancel_left,
      BitVec.getLsbD_eq_getElem]
  · ext i hi
    rw [BitVec.getElem_extractLsb', b.status_getLsbD_high (by omega), if_neg (by omega)]
    simpa using BitVec.getLsbD_of_ge _ _ (by omega)

end Sys2Proof.Machine

/-! PROOFS. Memory (20_memory.md): the three things a step can do where no hardware reset is next (R55, R56), and from
them that a step performs one command at most and that each port's commands keep their order; what a producer and a
consumer can foresee (R247). -/

namespace Sys2Proof.Machine

variable {aw : Nat}

/-! ### What a step does (R55, R56) -/

@[simp] theorem State.answerWith_port (s : State aw) (x : Block aw × Response) (p : Port) :
    (s.answerWith x).port p = s.port p := by cases p <;> rfl

/-- What one event other than a hardware reset does to the block, the log and the ports: nothing; or a port issues its
next command (R56); or one port's outstanding command is performed, whole (R55). -/
inductive State.Move (s t : State aw) : Prop
  | stay (block : t.block = s.block) (log : t.log = s.log) (port : ∀ q, t.port q = s.port q)
  | issue (p : Port) (c : Command) (cs : List Command)
      (idle : (s.port p).outstanding = none) (next : (s.port p).upcoming = c :: cs)
      (block : t.block = s.block) (log : t.log = s.log)
      (port : ∀ q, t.port q = if q = p then ⟨some c, cs⟩ else s.port q)
  | perform (p : Port) (c : Command) (pending : (s.port p).outstanding = some c)
      (block : t.block = (performResult p c s.block).1)
      (log : t.log = s.log ++ [Transaction.completed ⟨p, c⟩ (performResult p c s.block).2])
      (port : ∀ q, t.port q = if q = p then ⟨none, (s.port p).upcoming⟩ else s.port q)

/-- A move starts from the block, the log and the ports alone. -/
theorem State.Move.of_eq {s u t : State aw} (h : u.Move t) (hb : u.block = s.block) (hl : u.log = s.log)
    (hp : ∀ q, u.port q = s.port q) : s.Move t := by
  cases h with
  | stay block log port => exact .stay (by rw [block, hb]) (by rw [log, hl]) fun q => by rw [port, hp]
  | issue p c cs idle next block log port =>
    exact .issue p c cs (hp p ▸ idle) (hp p ▸ next) (by rw [block, hb]) (by rw [log, hl])
      fun q => by rw [port, hp]
  | perform p c pending block log port =>
    exact .perform p c (hp p ▸ pending) (by rw [block, hb]) (by rw [log, hb, hl])
      fun q => by rw [port, hp, hp]

theorem State.happen_move {s t : State aw} {e : Event} (h : s.happen e = .next t) (he : e ≠ .reset) :
    s.Move t := by
  rcases State.happen_cases h with
    ⟨p, -, ⟨-, rfl⟩ | ⟨c, cs, hu, ho, rfl⟩⟩ | ⟨p, rfl, ⟨-, rfl⟩ | ⟨c, ho, -⟩⟩ | ⟨rfl, -⟩
  · exact .stay rfl rfl fun _ => rfl
  · exact .issue p c cs ho hu (by simp) (by simp) (by simp)
  · exact .stay rfl rfl fun _ => rfl
  · rw [State.happen_grant ho, State.perform_eq_answer] at h
    cases h
    exact .perform p c ho rfl (State.logWith_accept ..) (by simp)
  · exact absurd rfl he

theorem State.advance_move {s t : State aw} (h : s.advance = .next t) (hr : s.noReset) : s.Move t := by
  rcases State.advance_cases h with ⟨e, es, hev, ht⟩ | ⟨-, -, rfl⟩ | ⟨-, e, k, he, ht⟩
  · have he : e ≠ .reset := by simpa [State.noReset, hev] using hr
    exact (State.happen_move ht he).of_eq rfl rfl (by simp)
  · exact .stay rfl rfl fun _ => rfl
  · exact (State.happen_move ht (State.ne_reset_of_mem_enabled he)).of_eq rfl rfl (by simp)

/-- Settles O18: only the move that performs an outstanding command answers anything. -/
theorem stepPerformsAtMostOneCommand : Obligations.StepPerformsAtMostOneCommand := by
  intro s t ht hr
  cases State.advance_move ht hr with
  | stay block log port => exact .inl ⟨log, block⟩
  | issue p c cs idle next block log port => exact .inl ⟨log, block⟩
  | perform p c pending block log port => exact .inr ⟨_, log, pending, by simp [Transaction.completed, port]⟩

/-! ### The order of a port's commands (R56) -/

theorem State.answeredOf_eq {s t : State aw} (h : t.log = s.log) (q : Port) : t.answeredOf q = s.answeredOf q := by
  simp only [State.answeredOf, h]

/-- One more answer is one more command of its own port. -/
theorem State.answeredOf_completed {s t : State aw} {x : Transaction} {r : Response}
    (h : t.log = s.log ++ [x.completed r]) (q : Port) :
    t.answeredOf q = s.answeredOf q ++ if q = x.port then [x.command] else [] := by
  by_cases hq : q = x.port
  · simp [State.answeredOf, h, Transaction.completed, hq]
  · simp [State.answeredOf, h, Transaction.completed, hq, Ne.symm hq]

/-- A move takes a command from one part of its port's list to the part before it. -/
theorem State.Move.commandsOf_eq {s t : State aw} (h : s.Move t) (q : Port) : t.commandsOf q = s.commandsOf q := by
  unfold State.commandsOf
  cases h with
  | stay block log port => rw [State.answeredOf_eq log, port]
  | issue p c cs idle next block log port =>
    rw [State.answeredOf_eq log, port]
    by_cases hq : q = p
    · simp [hq, idle, next]
    · simp [hq]
  | perform p c pending block log port =>
    rw [State.answeredOf_completed log, port]
    by_cases hq : q = p
    · simp [hq, pending]
    · simp [hq]

/-- Settles O19: each move keeps the list of every port. -/
theorem eachPortsCommandsKeepTheirOrder : Obligations.EachPortsCommandsKeepTheirOrder :=
  fun _ _ ht hr => (State.advance_move ht hr).commandsOf_eq

/-! ### Issuing (R56, R254) -/

theorem State.issue_next {s : State aw} {p : Port} {c : Command} {cs : List Command}
    (hu : (s.port p).upcoming = c :: cs) (ho : (s.port p).outstanding = none) :
    s.issue p = .next (s.setPort p ⟨some c, cs⟩) := by
  simp [State.issue, hu, ho]

theorem State.issue_early {s : State aw} {p : Port} {c : Command} {cs : List Command}
    (hu : (s.port p).upcoming = c :: cs) (ho : (s.port p).outstanding ≠ none) :
    s.issue p = .refused (.earlyIssue p) := by
  obtain ⟨o, ho⟩ := Option.ne_none_iff_exists'.1 ho
  simp [State.issue, hu, ho]

theorem State.advance_issue {s : State aw} {p : Port} {es : List Event} (h : s.events = .issue p :: es) :
    s.advance = State.issue { s with events := es } p := by
  simp only [State.advance, h, State.happen]

/-- Settles O15. -/
theorem issuingACommand : Obligations.IssuingACommand := by
  intro s p c cs es hev hu
  have hu' : (State.port { s with events := es } p).upcoming = c :: cs := by simpa using hu
  refine ⟨fun ho => ?_, fun ho => ?_⟩
  · exact ⟨_, (State.advance_issue hev).trans (State.issue_next hu' (by simpa using ho)), by simp,
      fun q hq => by simp [hq], by simp, by simp, by simp, by simp, by simp⟩
  · exact (State.advance_issue hev).trans (State.issue_early hu' (by simpa using ho))

/-! ### What no command of the other side can take away (R247) -/

theorem Block.Configured.free_le_pop {b : Block aw} (h : b.Configured) (n : Nat) : b.free ≤ (b.pop n).free := by
  have hcount := h.pop_count n
  unfold Block.free
  rw [hcount, Block.pop_cap]
  omega

/-- A dequeue takes words out, a read leaves them: neither decreases FREE. -/
theorem effectOf_free_le {i : Instr} {b b' : Block aw} {data : Word} {slots : List Slot} (hb : b.Inv)
    (h : effectOf i b = .done b' data slots) (hop : i.opcode = .deq ∨ i.opcode = .rdreg) : b.free ≤ b'.free := by
  rcases effectOf_done_cases h with
    ⟨_, _, _, _, _, -, -, -, -, hcfg, -⟩ | ⟨-, henq, -⟩ | ⟨hc, d, z, -, rfl, -⟩ | ⟨a, -, rfl, -⟩
  · rcases hcfg with hcfg | hcfg <;> simp [hcfg] at hop
  · rcases henq with henq | henq | henq <;> simp [henq] at hop
  · exact (hb.configured hc).free_le_pop _
  · exact le_rfl

/-- An enqueue adds words, a read leaves them: neither decreases COUNT. -/
theorem effectOf_count_le {i : Instr} {b b' : Block aw} {data : Word} {slots : List Slot} (hb : b.Inv)
    (h : effectOf i b = .done b' data slots)
    (hop : i.opcode = .enq ∨ i.opcode = .enqd ∨ i.opcode = .enqb ∨ i.opcode = .rdreg) :
    b.count.toNat ≤ b'.count.toNat := by
  rcases effectOf_done_cases h with
    ⟨_, _, _, _, _, -, -, -, -, hcfg, -⟩ | ⟨hc, -, ws, hw, rfl, -⟩ | ⟨-, d, z, rfl, -⟩ | ⟨a, -, rfl, -⟩
  · rcases hcfg with hcfg | hcfg <;> simp [hcfg] at hop
  · rw [(hb.configured hc).push_count hw]
    exact Nat.le_add_right _ _
  · simp [Instr.opcode] at hop
  · exact le_rfl

/-- Settles O57: a command that fails changes neither FREE nor COUNT. -/
theorem foreseeableDrops : Obligations.ForeseeableDrops := by
  intro i s t hs ht
  rcases exec_cases ht with ⟨-, b, data, slots, he, rfl⟩ | ⟨-, code, -, rfl⟩ | ⟨-, rfl⟩
  · exact ⟨effectOf_free_le hs.block he, effectOf_count_le hs.block he⟩
  · exact ⟨fun _ => le_rfl, fun _ => le_rfl⟩
  · exact ⟨fun _ => le_rfl, fun _ => le_rfl⟩

/-! ### The invariant of this hardware -/

/-- Settles O53: the step lemma for every AW, at 24. -/
theorem everyStepKeepsTheInvariant : Obligations.EveryStepKeepsTheInvariant :=
  fun _ _ hs ht => hs.advance (by decide) ht

end Sys2Proof.Machine

/-! PROOFS. Encoding (30_encoding.md): a command word as its four fields (R71), the reserved fields as an equation
between words (R78), and from them that decoder and encoder are each other's inverse (R76, R78, R80). -/

namespace Sys2Proof

/-! ### A command word is its four fields (R71) -/

/-- Bits [27:25], which no operation gives a meaning (R71). -/
def unusedField (w : Word) : BitVec 3 := w.extractLsb' 25 3

@[simp] theorem unusedField_commandWord (op : Opcode) (z : Bool) (low : BitVec 24) :
    unusedField (commandWord op z low) = 0 := by
  apply BitVec.eq_of_getLsbD_eq
  intro i hi
  have hop : 25 + i < 28 := by omega
  have hz : (BitVec.ofBool z).getLsbD (25 + i - 24) = false := BitVec.getLsbD_of_ge _ _ (by omega)
  have hlow : low.getLsbD (25 + i) = false := BitVec.getLsbD_of_ge _ _ (by omega)
  simp [unusedField, commandWord, hop, hz, hlow]

theorem opField_toNat (w : Word) : (opField w).toNat = w.toNat / 2 ^ 28 % 2 ^ 4 := by
  rw [opField, BitVec.extractLsb'_toNat, Nat.shiftRight_eq_div_pow]

theorem unusedField_toNat (w : Word) : (unusedField w).toNat = w.toNat / 2 ^ 25 % 2 ^ 3 := by
  rw [unusedField, BitVec.extractLsb'_toNat, Nat.shiftRight_eq_div_pow]

theorem zField_eq_decide (w : Word) : zField w = decide (w.toNat / 2 ^ 24 % 2 = 1) := by
  rw [zField, BitVec.getLsbD, Nat.testBit_eq_decide_div_mod_eq]

theorem lenField_toNat (w : Word) : (lenField w).toNat = w.toNat % 2 ^ 24 := by
  rw [lenField, BitVec.extractLsb'_toNat, Nat.shiftRight_zero]

theorem raddrField_eq_lenField (w : Word) : raddrField w = (lenField w).setWidth 8 := by
  apply BitVec.eq_of_toNat_eq
  rw [raddrField, BitVec.extractLsb'_toNat, BitVec.toNat_setWidth, lenField_toNat, Nat.shiftRight_zero]
  omega

theorem word_ext {v w : Word} (hop : opField v = opField w) (hunused : unusedField v = unusedField w)
    (hz : zField v = zField w) (hlen : lenField v = lenField w) : v = w := by
  simp only [← BitVec.toNat_inj, opField_toNat, unusedField_toNat, lenField_toNat] at hop hunused hlen ⊢
  simp only [zField_eq_decide, decide_eq_decide] at hz
  omega

theorem eq_commandWord_iff {w : Word} {op : Opcode} {z : Bool} {low : BitVec 24} :
    w = commandWord op z low ↔
      opField w = op.bits ∧ unusedField w = 0 ∧ zField w = z ∧ lenField w = low := by
  constructor
  · rintro rfl
    simp
  · rintro ⟨hop, hunused, hz, hlen⟩
    exact word_ext (by simpa using hop) (by simpa using hunused) (by simpa using hz) (by simpa using hlen)

/-! ### The reserved fields (R78) -/

theorem extractLsb'_24_4_eq_zero_iff (w : Word) :
    w.extractLsb' 24 4 = 0#4 ↔ unusedField w = 0#3 ∧ zField w = false := by
  rw [zField_eq_decide, decide_eq_false_iff_not]
  simp only [← BitVec.toNat_inj, unusedField_toNat, BitVec.extractLsb'_toNat, Nat.shiftRight_eq_div_pow,
    BitVec.toNat_ofNat]
  omega

theorem extractLsb'_0_28_eq_zero_iff (w : Word) :
    w.extractLsb' 0 28 = 0#28 ↔ unusedField w = 0#3 ∧ zField w = false ∧ lenField w = 0#24 := by
  rw [zField_eq_decide, decide_eq_false_iff_not]
  simp only [← BitVec.toNat_inj, unusedField_toNat, lenField_toNat, BitVec.extractLsb'_toNat,
    Nat.shiftRight_eq_div_pow, BitVec.toNat_ofNat]
  omega

theorem extractLsb'_8_20_eq_zero_iff (w : Word) :
    w.extractLsb' 8 20 = 0#20 ↔
      unusedField w = 0#3 ∧ zField w = false ∧ lenField w = (raddrField w).setWidth 24 := by
  rw [zField_eq_decide, decide_eq_false_iff_not, raddrField_eq_lenField]
  simp only [← BitVec.toNat_inj, unusedField_toNat, lenField_toNat, BitVec.extractLsb'_toNat,
    Nat.shiftRight_eq_div_pow, BitVec.toNat_ofNat, BitVec.toNat_setWidth]
  omega

/-- The command word with zero in its reserved fields and, in the others, what `w` has there. -/
def canonicalWord (op : Opcode) (w : Word) : Word :=
  match op with
  | .cfgr | .cfga => commandWord op false 0
  | .enq | .enqd | .enqb => commandWord op false (lenField w)
  | .deq => commandWord .deq (zField w) (lenField w)
  | .rdreg => commandWord .rdreg false ((raddrField w).setWidth 24)

theorem reservedZero_iff {op : Opcode} {w : Word} (hop : opField w = op.bits) :
    reservedZero op w = true ↔ w = canonicalWord op w := by
  cases op with
  | cfgr | cfga => simp [reservedZero, canonicalWord, eq_commandWord_iff, hop, extractLsb'_0_28_eq_zero_iff]
  | enq | enqd | enqb => simp [reservedZero, canonicalWord, eq_commandWord_iff, hop, extractLsb'_24_4_eq_zero_iff]
  | deq => simp [reservedZero, canonicalWord, eq_commandWord_iff, hop, unusedField]
  | rdreg => simp [reservedZero, canonicalWord, eq_commandWord_iff, hop, extractLsb'_8_20_eq_zero_iff]

/-! ### Decoder and encoder (R76, R78, R80) -/

/-- The checks of `decode_ok` are all there are. -/
theorem decode_eq_ok {op : Opcode} {w : Word} {payload : List Elem} {i : Instr} (hop : opField w = op.bits)
    (hzero : reservedZero op w = true) (hlen : payload.length = payloadLength op w)
    (hi : operands op w payload = some i) : decode w payload = .ok i := by
  have hreg : (op == .rdreg && (regOf (raddrField w)).isNone) = false := by
    by_cases h : op = .rdreg
    · subst h
      obtain ⟨a, ha, -⟩ := Option.map_eq_some_iff.1 hi
      simp [ha]
    · simp [h]
  simp [decode, opcodeOf_eq_some.2 hop, hzero, hreg, hlen, hi]

theorem encodedShape (i : Instr) : Laws.EncodedShape.Statement i := by
  cases i with
  | cfgr r => exact Laws.EncodedShape.cfgr r
  | cfga ch sr bt => exact Laws.EncodedShape.cfga ch sr bt
  | enq src => exact Laws.EncodedShape.enq src
  | enqd n => exact Laws.EncodedShape.enqd n
  | enqb raw => exact Laws.EncodedShape.enqb raw
  | deq d z => exact Laws.EncodedShape.deq d z
  | rdreg a => exact Laws.EncodedShape.rdreg a

theorem raddrField_commandWord_setWidth (op : Opcode) (z : Bool) (a : BitVec 8) :
    raddrField (commandWord op z (a.setWidth 24)) = a := by
  simp [raddrField_eq_lenField]

theorem canonicalWord_encode (i : Instr) : canonicalWord i.opcode (encode i).1 = (encode i).1 := by
  cases i <;> simp [canonicalWord, encode, Instr.opcode, raddrField_commandWord_setWidth]

theorem operands_encode (i : Instr) : operands i.opcode (encode i).1 (encode i).2 = some i := by
  cases i <;>
    simp [operands, encode, Instr.opcode, wordsOf_map, bytesOf_map, raddrField_commandWord_setWidth, regOf_addr]

theorem decode_encode {i : Instr} (hi : i.wf = true) : decode (encode i).1 (encode i).2 = .ok i := by
  obtain ⟨hop, hlen⟩ := encodedShape i hi
  exact decode_eq_ok hop ((reservedZero_iff hop).2 (canonicalWord_encode i).symm) hlen (operands_encode i)

/-- An element count that LEN gives fits LEN, which is then the count's encoding (R73). -/
theorem lenField_eq_ofNat {n : Nat} {w : Word} (h : n = (lenField w).toNat) :
    n < 2 ^ 24 ∧ BitVec.ofNat 24 n = lenField w := by
  subst h
  exact ⟨(lenField w).isLt, by simp⟩

/-- The operands and the fields they were read from are the command's encoding. -/
theorem encode_of_operands {op : Opcode} {w : Word} {payload : List Elem} {i : Instr}
    (hlen : payload.length = payloadLength op w) (hi : operands op w payload = some i) :
    i.wf = true ∧ encode i = (canonicalWord op w, payload) := by
  cases op with
  | cfgr | cfga =>
    simp only [operands] at hi
    split at hi <;> cases hi
    exact ⟨rfl, rfl⟩
  | enq =>
    obtain ⟨ws, hws, rfl⟩ := Option.map_eq_some_iff.1 hi
    obtain rfl := wordsOf_eq_some.1 hws
    obtain ⟨hlt, heq⟩ := lenField_eq_ofNat ((List.length_map ..).symm.trans hlen)
    exact ⟨decide_eq_true hlt, by rw [encode, heq]; rfl⟩
  | enqb =>
    obtain ⟨bs, hbs, rfl⟩ := Option.map_eq_some_iff.1 hi
    obtain rfl := bytesOf_eq_some.1 hbs
    obtain ⟨hlt, heq⟩ := lenField_eq_ofNat ((List.length_map ..).symm.trans hlen)
    exact ⟨decide_eq_true hlt, by rw [encode, heq]; rfl⟩
  | enqd | deq =>
    obtain rfl := List.length_eq_zero_iff.1 hlen
    cases hi
    exact ⟨rfl, rfl⟩
  | rdreg =>
    obtain rfl := List.length_eq_zero_iff.1 hlen
    obtain ⟨a, ha, rfl⟩ := Option.map_eq_some_iff.1 hi
    exact ⟨rfl, by simp [encode, canonicalWord, regOf_eq_some.1 ha]⟩

theorem encode_of_decode {w : Word} {payload : List Elem} {i : Instr} (h : decode w payload = .ok i) :
    i.wf = true ∧ encode i = (w, payload) := by
  obtain ⟨op, hop, hzero, -, hlen, hi⟩ := decode_ok h
  obtain ⟨hwf, henc⟩ := encode_of_operands hlen hi
  exact ⟨hwf, by rw [henc, ← (reservedZero_iff (opcodeOf_eq_some.1 hop)).1 hzero]⟩

/-- Settles O5: the encoding passes every check of `decode`, and its operands read back. -/
theorem decodeOfEncode : Obligations.DecodeOfEncode := fun _ => decode_encode

/-- Settles O6: the operands fix the payload, the reserved fields the rest of the word. -/
theorem encodeOfDecode : Obligations.EncodeOfDecode := fun _ _ _ => encode_of_decode

/-! ### The opcode table's masks -/

/-- A mask without bits in LEN gives the same whatever LEN holds. -/
theorem commandWord_and {m : Word} (hm : m.setWidth 24 = 0) (op : Opcode) (z : Bool) (low : BitVec 24) :
    commandWord op z low &&& m = commandWord op z 0 &&& m := by
  have hlow : low.setWidth 32 &&& m = 0 := by
    apply BitVec.eq_of_getLsbD_eq
    intro i _
    have hbit : (m.setWidth 24).getLsbD i = false := by simp [hm]
    rw [BitVec.getLsbD_setWidth] at hbit
    by_cases hi : i < 24
    · simp [show m.getLsbD i = false by simpa [hi] using hbit]
    · simp [BitVec.getLsbD_of_ge low i (by omega)]
  simp [commandWord, BitVec.and_or_distrib_right, hlow]

/-- Settles O8: the word is the command's encoding (O6), whose bits the operands fill only where the
row's mask has none. -/
theorem decodedWordsMatchTheirTableRow : Obligations.DecodedWordsMatchTheirTableRow := by
  intro w payload i h
  obtain ⟨-, henc⟩ := encode_of_decode h
  obtain rfl : (encode i).1 = w := congrArg Prod.fst henc
  cases i with
  | cfgr r => exact (by decide : commandWord .cfgr false 0 &&& 0xFFFFFFFF = 0x10000000)
  | cfga ch sr bt => exact (by decide : commandWord .cfga false 0 &&& 0xFFFFFFFF = 0x20000000)
  | enq src => exact commandWord_and (by decide) ..
  | enqd n => exact commandWord_and (by decide) ..
  | enqb raw => exact commandWord_and (by decide) ..
  | deq d z => exact (commandWord_and (by decide) ..).trans (by cases z <;> rfl)
  | rdreg a => cases a <;> rfl

/-! ### Words written out (R71, R75) -/

/-- Settles O4: each word and payload is the encoding of the command beside it. -/
theorem specWordsDecode : Obligations.SpecWordsDecode :=
  ⟨decode_encode (i := .cfgr 10) rfl, decode_encode (i := .cfga 2 48000 1) rfl,
    decode_encode (i := .enq [1, 2, 3]) rfl, decode_encode (i := .enqd 5) rfl,
    decode_encode (i := .enqb [0x00, 0x00, 0x80, 0x3F]) rfl, decode_encode (i := .deq 3 false) rfl,
    decode_encode (i := .deq 4 true) rfl, decode_encode (i := .rdreg .reqcap) rfl⟩

theorem regOf_eq_none {x : BitVec 8} (h : 0x09 < x.toNat) : regOf x = none := by
  apply Option.eq_none_iff_forall_ne_some.2
  intro a ha
  rw [regOf_eq_some.1 ha] at h
  revert h
  cases a <;> decide

theorem decode_reservedRaddr {w : Word} {payload : List Elem} (hop : opField w = Opcode.rdreg.bits)
    (hzero : reservedZero .rdreg w = true) (hreg : regOf (raddrField w) = none) :
    decode w payload = .error .reservedRaddr := by
  simp [decode, opcodeOf_eq_some.2 hop, hzero, hreg]

/-- The word that O9 writes for any RADDR is the command word of RDREG with that address. -/
theorem rdregWord_eq (a : BitVec 8) : 0xC0000000 ||| a.setWidth 32 = commandWord .rdreg false (a.setWidth 24) := by
  simp [commandWord, Opcode.bits]

/-- Settles O9: the ten addresses are encodings; above them the map has no register, and no earlier check rejects. -/
theorem registerMapAddresses : Obligations.RegisterMapAddresses := by
  refine ⟨decode_encode (i := .rdreg .capacity) rfl, decode_encode (i := .rdreg .count) rfl,
    decode_encode (i := .rdreg .free) rfl, decode_encode (i := .rdreg .head) rfl,
    decode_encode (i := .rdreg .tail) rfl, decode_encode (i := .rdreg .status) rfl,
    decode_encode (i := .rdreg .channels) rfl, decode_encode (i := .rdreg .rate) rfl,
    decode_encode (i := .rdreg .buftime) rfl, decode_encode (i := .rdreg .reqcap) rfl, fun a ha => ?_⟩
  have hop := opField_commandWord .rdreg false (a.setWidth 24)
  rw [rdregWord_eq]
  refine decode_reservedRaddr hop ((reservedZero_iff hop).2 ?_) ?_
  · rw [canonicalWord, raddrField_commandWord_setWidth]
  · rw [raddrField_commandWord_setWidth, regOf_eq_none ha]

end Sys2Proof

namespace Sys2Proof.Machine

/-! ### Assembly (R81, R82) -/

/-- Settles O10: the assembler runs on each line. -/
theorem assemblyLinesAreTheirTransactions : Obligations.AssemblyLinesAreTheirTransactions :=
  ⟨rfl, rfl, rfl, rfl, rfl, rfl, rfl, rfl, rfl, rfl⟩

/-- Lines of one port whose operations are the same are the same transaction. -/
theorem assembleLine_congr {line line' : String} {p m m' : List Char} {args args' : List Tok}
    (h : lex line.toList [] = some (.name p :: .colon :: .name m :: args))
    (h' : lex line'.toList [] = some (.name p :: .colon :: .name m' :: args'))
    (hop : operation m args = operation m' args') : assembleLine line = assembleLine line' := by
  simp only [assembleLine, h, h', hop]

theorem operation_aenq (args : List Tok) : operation "AENQ".toList args = operation "ENQ".toList args := rfl

theorem operation_aenqb (args : List Tok) : operation "AENQB".toList args = operation "ENQB".toList args := rfl

theorem operation_adeq (args : List Tok) : operation "ADEQ".toList args = operation "DEQ.Z".toList args := rfl

theorem operation_rdeq (args : List Tok) : operation "RDEQ".toList args = operation "DEQ".toList args := rfl

/-- Settles O11: a mnemonic with operands is the same operation as its expansion's on any operands; on the lines of
the others the assembler runs. -/
theorem pseudoInstructionsExpand : Obligations.PseudoInstructionsExpand :=
  ⟨assembleLine_congr rfl rfl (operation_aenq _), assembleLine_congr rfl rfl (operation_aenqb _),
   assembleLine_congr rfl rfl (operation_adeq _), assembleLine_congr rfl rfl (operation_rdeq _),
   rfl, rfl, rfl, rfl, rfl, rfl⟩

/-! ### Illegal transactions (R79, R204) -/

variable {aw : Nat}

@[simp] theorem State.raise_port (s : State aw) (code : Code) (p : Port) : (s.raise code).port p = s.port p := by
  cases p <;> rfl

theorem State.perform_error {s : State aw} {p : Port} {c : Command} {r : Reject}
    (h : decode c.word c.payload = .error r) : s.perform p c = .next ((s.accept p c).raise .errIllegal) := by
  simp only [State.perform, h]

/-- Settles O14: the arbiter takes the transaction out of its port's entry, and `State.raise` has the frame of R204. -/
theorem illegalTransactionChangesOnlyLasterr : Obligations.IllegalTransactionChangesOnlyLasterr := by
  intro s p c es r hev hc hd
  exact ⟨_, (State.advance_grant hev hc).trans (State.perform_error hd), by simp, by simp, by simp, by simp, by simp,
    by simp, fun q hq => by simp [hq]⟩

end Sys2Proof.Machine

/-! PROOFS. Configuration (40_configuration.md): the answer of a command that fails and of one that configures, said
once for CFGR and CFGA (R100 to R109), the rounding law (R103), and what MODE does not reach (R111). -/

namespace Sys2Proof.Machine

variable {aw : Nat}

/-! ### Answers (R204, R210) -/

@[simp] theorem State.logWith_inj {s : State aw} {r r' : Response} {dst dst' : List Word} :
    s.logWith r dst = s.logWith r' dst' ↔ r = r' ∧ dst = dst' := by
  simp [State.logWith]

theorem State.respond_sameOutside (s : State aw) (b : Block aw) (data : Word) (slots : List Slot) :
    s.SameOutside (s.respond b data slots) :=
  ⟨rfl, rfl, rfl, rfl, rfl, rfl⟩

/-- CFGR and CFGA are port H's alone (R210). -/
theorem permitted_configuration {op : Opcode} (hop : op = .cfgr ∨ op = .cfga) (p : Port) :
    permitted op p = true ↔ p = .host := by
  rcases hop with rfl | rfl <;> cases p <;> decide

theorem exec_failsWith_errPort {i : Instr} {s : State} (hp : permitted i.opcode s.granted.port = false) :
    ∃ t, exec i s = .next t ∧ s.FailsWith t .errPort :=
  ⟨_, by rw [exec_eq_command, State.command_wrongPort _ hp], s.raise_failsWith _⟩

theorem Effect.eq_fail_of_code {e : Effect aw} {code : Code} (h : e.code = code) (hc : code ≠ .ok) :
    e = .fail code := by
  cases e with
  | done b data slots => exact absurd h.symm hc
  | fail code' => exact congrArg Effect.fail h

theorem exec_failsWith_code {i : Instr} {s : State} {code : Code} (hp : permitted i.opcode s.granted.port = true)
    (h : (effectOf i s.block).code = code) (hc : code ≠ .ok) :
    ∃ t, exec i s = .next t ∧ s.FailsWith t code :=
  ⟨_, exec_fail hp (Effect.eq_fail_of_code h hc), s.raise_failsWith _⟩

/-- Every command answered with a code other than OK has the frame of R204. -/
theorem exec_failsWith_of_log {i : Instr} {s t : State} {r : Response} {dst : List Word} (h : exec i s = .next t)
    (hlog : t.log = s.logWith r dst) (hr : r.code ≠ .ok) : s.FailsWith t r.code := by
  rcases exec_cases h with ⟨-, b, data, slots, -, rfl⟩ | ⟨-, code, -, rfl⟩ | ⟨-, rfl⟩ <;>
    obtain ⟨rfl, -⟩ := State.logWith_inj.1 hlog
  · exact absurd rfl hr
  · exact s.raise_failsWith code
  · exact s.raise_failsWith .errPort

/-! ### A successful configuration (R35, R100, R106) -/

theorem Block.construct_eq_done (b : Block aw) {mode : Mode} {p : Nat} {ch sr bt : Word} (h1 : 1 ≤ p)
    (h2 : p ≤ 2 ^ aw) : b.construct mode p ch sr bt = .done (b.configure mode p ch sr bt) 0 [] := by
  rw [Block.construct, if_neg (by omega), if_neg (by omega)]

theorem Block.cfga_eq_done (b : Block aw) {ch sr bt : Word} (h1 : 1 ≤ depth ch sr bt)
    (h2 : depth ch sr bt ≤ 2 ^ aw) :
    b.cfga ch sr bt = .done (b.configure .audio (depth ch sr bt) ch sr bt) 0 [] := by
  have hne : ¬ (ch = 0 ∨ sr = 0 ∨ bt = 0) := by rw [← depth_eq_zero_iff]; omega
  rw [Block.cfga, if_neg fun h => hne (h.imp_right .inl), b.construct_eq_done h1 h2]

/-- A configuration that succeeds had a request within the bounds of R101 and R102. -/
theorem Block.construct_done_bounds {b b' : Block aw} {mode : Mode} {p : Nat} {ch sr bt data : Word}
    {slots : List Slot} (h : b.construct mode p ch sr bt = .done b' data slots) : 1 ≤ p ∧ p ≤ 2 ^ aw := by
  have hcode := b.construct_code mode p ch sr bt
  rw [h, Effect.code] at hcode
  split at hcode
  · cases hcode
  · split at hcode
    · cases hcode
    · omega

/-- AW + 1 bits hold the capacity of every accepted request. -/
theorem Block.configure_cap_toNat (b : Block aw) (mode : Mode) {p : Nat} (ch sr bt : Word) (h : p ≤ 2 ^ aw) :
    (b.configure mode p ch sr bt).cap.toNat = nextPow2 p := by
  have hlt : nextPow2 p < 2 ^ (aw + 1) := (nextPow2_le_pow h).trans_lt (Nat.pow_lt_pow_succ (by omega))
  rw [Block.configure_cap, BitVec.toNat_ofNat, Nat.mod_eq_of_lt hlt]

@[simp] theorem Block.configure_empty (b : Block aw) (mode : Mode) (p : Nat) (ch sr bt : Word) :
    (b.configure mode p ch sr bt).empty = true := by
  simp [Block.empty]

/-- A newly configured block is not full: it holds no word, and its capacity is at least 1. -/
theorem Block.configure_full (b : Block aw) (mode : Mode) {p : Nat} (ch sr bt : Word) (h : p ≤ 2 ^ aw) :
    (b.configure mode p ch sr bt).full = false := by
  have hne : (b.configure mode p ch sr bt).count ≠ (b.configure mode p ch sr bt).cap := by
    intro heq
    have hcap := b.configure_cap_toNat mode ch sr bt h
    rw [← heq, Block.configure_count] at hcap
    exact (nextPow2_pos p).ne (by simpa using hcap)
  rw [Block.full, beq_false_of_ne hne, Bool.and_false]

/-! ### CFGR and CFGA (R100 to R109) -/

/-- Settles O27: the codes are `Block.cfgr_code`'s, and the state is that of `Block.configure`. -/
theorem cfgrConfiguresOrFails : Obligations.CfgrConfiguresOrFails := by
  intro r s
  have hperm := permitted_configuration (.inl rfl) s.granted.port
  refine ⟨decode_encode (i := .cfgr r) rfl, fun hp => ?_, fun hp hr => ?_, fun hp hr => ?_, fun hp hr0 hr => ?_⟩
  · exact exec_failsWith_errPort (Bool.eq_false_iff.2 (mt hperm.1 hp))
  · refine exec_failsWith_code (hperm.2 hp) ((Block.cfgr_code ..).trans ?_) nofun
    rw [if_pos hr]
  · refine exec_failsWith_code (hperm.2 hp) ((Block.cfgr_code ..).trans ?_) nofun
    rw [if_neg (by rintro rfl; simp at hr), if_pos hr]
  · have h1 : 1 ≤ r.toNat := Nat.one_le_iff_ne_zero.2 fun h => hr0 (BitVec.eq_of_toNat_eq h)
    exact ⟨_, exec_done (i := .cfgr r) (hperm.2 hp) (s.block.construct_eq_done h1 hr), rfl, rfl,
      s.block.configure_cap_toNat _ _ _ _ hr, rfl, rfl, rfl, by simp, rfl, rfl, rfl, rfl, Block.configure_empty ..,
      s.block.configure_full _ _ _ _ hr, fun _ => rfl, by simp, s.respond_sameOutside _ _ _⟩

/-- Settles O28: the codes are `Block.cfga_code`'s; an operand of 0 makes the product 0 (R107). -/
theorem cfgaConfiguresOrFails : Obligations.CfgaConfiguresOrFails := by
  intro ch sr bt s
  have hperm := permitted_configuration (.inr rfl) s.granted.port
  refine ⟨decode_encode (i := .cfga ch sr bt) rfl, fun hp => ?_, fun hp h0 => ?_, fun hp hd => ?_,
    fun hp h1 h2 => ?_⟩
  · exact exec_failsWith_errPort (Bool.eq_false_iff.2 (mt hperm.1 hp))
  · refine exec_failsWith_code (hperm.2 hp) ((Block.cfga_code ..).trans ?_) nofun
    rw [if_pos h0]
  · have hne : depth ch sr bt ≠ 0 := Nat.ne_zero_of_lt hd
    refine exec_failsWith_code (hperm.2 hp) ((Block.cfga_code ..).trans ?_) nofun
    rw [if_neg (mt (depth_eq_zero_iff ch sr bt).2 hne)]
    exact if_pos hd
  · have hreq : (BitVec.ofNat 32 (depth ch sr bt)).toNat = depth ch sr bt :=
      Nat.mod_eq_of_lt (h2.trans_lt (by decide))
    exact ⟨_, exec_done (i := .cfga ch sr bt) (hperm.2 hp) (s.block.cfga_eq_done h1 h2), rfl, rfl,
      s.block.configure_cap_toNat _ _ _ _ h2, rfl, rfl, rfl, hreq, rfl, rfl, rfl, rfl, Block.configure_empty ..,
      s.block.configure_full _ _ _ _ h2, fun _ => rfl, by simp, s.respond_sameOutside _ _ _⟩

/-! ### A failed configuration (R104) -/

/-- What reading around the ring sees of the block: CAP, the written slots and the draw of the others. -/
theorem Block.readRing_congr {a b : Block aw} (hcap : a.cap = b.cap) (hstor : a.stor = b.stor)
    (hdraw : a.draw = b.draw) (k n : Nat) : a.readRing k n = b.readRing k n := by
  induction n generalizing k with
  | zero => rfl
  | succ n ih => simp only [Block.readRing, Block.readSlot, hcap, hstor, hdraw, ih]

theorem Block.contents_withLasterr (b : Block aw) (code : Code) :
    Block.contents { b with lasterr := code } = b.contents :=
  Block.readRing_congr (a := { b with lasterr := code }) (b := b) rfl rfl rfl _ _

/-- Settles O29: the frame of R204, and neither the queue nor a slot reads LASTERR. -/
theorem failedConfigurationKeepsTheInstance : Obligations.FailedConfigurationKeepsTheInstance := by
  intro i s t r dst _ h hlog hr
  obtain ⟨hblock, -, hout⟩ := exec_failsWith_of_log h hlog hr
  rw [hblock]
  exact ⟨rfl, s.block.contents_withLasterr r.code, fun _ => rfl, hout⟩

/-! ### The rounding law (R103) -/

/-- Were the power twice the request, half of it would do. -/
theorem nextPow2_lt_two_mul {r : Nat} (hr : 1 ≤ r) : nextPow2 r < 2 * r := by
  obtain ⟨k, hk⟩ := nextPow2_pow r
  by_contra hge
  cases k with
  | zero => omega
  | succ j =>
    have hhalf : r ≤ 2 ^ j := by rw [hk, Nat.pow_succ] at hge; omega
    have hle := nextPow2_le_pow hhalf
    rw [hk] at hle
    exact absurd ((Nat.pow_le_pow_iff_right (by omega)).1 hle) (by omega)

theorem nextPow2_eq_self_iff (r : Nat) : nextPow2 r = r ↔ ∃ k, r = 2 ^ k := by
  constructor
  · intro h
    rw [← h]
    exact nextPow2_pow r
  · rintro ⟨k, rfl⟩
    exact le_antisymm (nextPow2_le_pow le_rfl) (le_nextPow2 _)

/-- Settles O31: the laws of `nextPow2`, for the capacity that an accepted request makes. -/
theorem capacityRoundingLaw : Obligations.CapacityRoundingLaw := by
  intro aw b b' r data slots haw h
  obtain ⟨h1, h2⟩ := Block.construct_done_bounds h
  obtain rfl := Block.construct_done h
  have hconf := b.configured_configure (mode := .ring) (ch := 0) (sr := 0) (bt := 0) haw h1 h2
    (fun _ => ⟨rfl, rfl, rfl⟩) nofun
  have hcap := b.configure_cap_toNat .ring 0 0 0 h2
  refine ⟨h1, h2, hcap, hconf.cap_pow, ?_, ?_, ?_⟩ <;> rw [hcap]
  · exact le_nextPow2 _
  · exact nextPow2_lt_two_mul h1
  · exact nextPow2_eq_self_iff _

/-! ### MODE (R111) -/

/-- A command guarded by CFGD succeeds whatever MODE is, where what it does keeps MODE as it was. -/
theorem Effect.done_of_guard_withMode {c : Bool} {code : Code} {b b' : Block aw} {x data : Word}
    {l slots : List Slot} (h : (if c then Effect.done b x l else .fail code) = .done b' data slots) (m : Mode) :
    (if c then Effect.done { b with mode := m } x l else .fail code) = .done { b' with mode := m } data slots := by
  obtain ⟨hc, rfl, rfl, rfl⟩ := Effect.done_of_guard h
  exact if_pos hc

theorem Block.deqSlots_withMode (b : Block aw) (m : Mode) (fill : Config.PartialFill) (d : Nat) (z : Bool) :
    Block.deqSlots { b with mode := m } fill d z = b.deqSlots fill d z := by
  have hread := Block.readRing_congr (a := { b with mode := m }) (b := b) rfl rfl rfl
  simp only [Block.deqSlots, hread]

theorem Block.register_withMode (b : Block aw) (m : Mode) {a : Reg} (ha : a ≠ .status) :
    Block.register { b with mode := m } a = b.register a := by
  cases a with
  | status => exact absurd rfl ha
  | _ => rfl

/-- Settles O34: a push, a pop and a read of any register but STATUS do not look at MODE. -/
theorem modeChangesNoDataCommand : Obligations.ModeChangesNoDataCommand := by
  intro aw fill b b' m data slots
  refine ⟨fun src h => Effect.done_of_guard_withMode h m, fun n h => Effect.done_of_guard_withMode h m,
    fun raw h => Effect.done_of_guard_withMode h m, fun d z h => ?_, fun a ha h => ?_⟩
  · rw [Block.deq, Block.deqSlots_withMode]
    exact Effect.done_of_guard_withMode h m
  · cases h
    rw [Block.rdreg, Block.register_withMode b m ha]

end Sys2Proof.Machine

/-! PROOFS. Enqueue (41_enqueue.md): ENQD and ENQB are each an ENQ of other words (R135, R136, R138), and an ENQ is a
push of the words that fit, with the slots, the cursors and the flags that a push leaves (R130, R131, R133). -/

namespace Sys2Proof

/-! ### The words of the commands (R130, R134, R136) -/

theorem commandWord_false (op : Opcode) (low : BitVec 24) :
    commandWord op false low = (op.bits.setWidth 32 <<< 28) ||| low.setWidth 32 := by
  simp [commandWord]

theorem decode_enq {src : List Word} {l : BitVec 24} (h : src.length = l.toNat) :
    decode (0x40000000 ||| l.setWidth 32) (src.map .word) = .ok (.enq src) := by
  have hdec := decode_encode (i := .enq src) (decide_eq_true (h ▸ l.isLt))
  rwa [encode, h, BitVec.ofNat_toNat, BitVec.setWidth_eq, commandWord_false] at hdec

theorem decode_enqb {raw : List Byte} {l : BitVec 24} (h : raw.length = l.toNat) :
    decode (0x60000000 ||| l.setWidth 32) (raw.map .byte) = .ok (.enqb raw) := by
  have hdec := decode_encode (i := .enqb raw) (decide_eq_true (h ▸ l.isLt))
  rwa [encode, h, BitVec.ofNat_toNat, BitVec.setWidth_eq, commandWord_false] at hdec

theorem decode_enqd (n : BitVec 24) : decode (0x50000000 ||| n.setWidth 32) [] = .ok (.enqd n) := by
  have hdec := decode_encode (i := .enqd n) rfl
  rwa [encode, commandWord_false] at hdec

end Sys2Proof

namespace Sys2Proof.Machine

variable {aw : Nat}

/-! ### Bytes as words (R52, R137, R138) -/

theorem wordsOfBytes_eq_nil_iff {raw : List Byte} : wordsOfBytes raw = [] ↔ raw.length < 4 := by
  rw [← List.length_eq_zero_iff, wordsOfBytes_length]
  omega

/-- Word `i` is the bytes `4i` to `4i + 3`, little-endian. -/
theorem wordsOfBytes_getD {raw : List Byte} {i : Nat} (hi : i < raw.length / 4) :
    (wordsOfBytes raw).getD i 0 = wordOfBytes (raw.getD (4 * i) 0) (raw.getD (4 * i + 1) 0)
      (raw.getD (4 * i + 2) 0) (raw.getD (4 * i + 3) 0) := by
  induction raw using wordsOfBytes.induct generalizing i with
  | case1 b0 b1 b2 b3 bs ih =>
    cases i with
    | zero => rfl
    | succ i => exact ih (by simp only [List.length_cons] at hi; omega)
  | case2 bs h =>
    have hlt : bs.length < 4 := wordsOfBytes_eq_nil_iff.1 (wordsOfBytes.eq_2 bs h)
    omega

/-- After whole words the grouping starts anew. -/
theorem wordsOfBytes_append {raw : List Byte} (rest : List Byte) (h4 : raw.length % 4 = 0) :
    wordsOfBytes (raw ++ rest) = wordsOfBytes raw ++ wordsOfBytes rest := by
  induction raw using wordsOfBytes.induct with
  | case1 b0 b1 b2 b3 bs ih =>
    simp only [List.length_cons] at h4
    simp only [List.cons_append, wordsOfBytes, ih (by omega)]
  | case2 bs h =>
    have hlt : bs.length < 4 := wordsOfBytes_eq_nil_iff.1 (wordsOfBytes.eq_2 bs h)
    obtain rfl : bs = [] := List.eq_nil_of_length_eq_zero (by omega)
    rfl

/-- Bits `k` to `k + 7` of a word, shifted back to their place, are the word's bits there and no others. -/
theorem getLsbD_extractLsb'_shiftLeft (w : Word) (k : Nat) {i : Nat} (hi : i < 32) :
    ((w.extractLsb' k 8).setWidth 32 <<< k).getLsbD i = (decide (k ≤ i ∧ i < k + 8) && w.getLsbD i) := by
  rcases Nat.lt_or_ge i k with hk | hk
  · simp [hk, Nat.not_le.2 hk]
  · obtain ⟨j, rfl⟩ := Nat.exists_eq_add_of_le hk
    simp [hi]

theorem wordOfBytes_extractLsb' (w : Word) :
    wordOfBytes (w.extractLsb' 0 8) (w.extractLsb' 8 8) (w.extractLsb' 16 8) (w.extractLsb' 24 8) = w := by
  apply BitVec.eq_of_getLsbD_eq
  intro i hi
  have h0 := getLsbD_extractLsb'_shiftLeft w 0 hi
  rw [BitVec.shiftLeft_zero] at h0
  simp only [wordOfBytes, BitVec.getLsbD_or, h0, getLsbD_extractLsb'_shiftLeft w _ hi, ← Bool.and_or_distrib_right,
    ← Bool.decide_or]
  rw [decide_eq_true (by omega), Bool.true_and]

theorem wordsOfBytes_bytesOfWord_append (w : Word) (bs : List Byte) :
    wordsOfBytes (bytesOfWord w ++ bs) = w :: wordsOfBytes bs :=
  congrArg (· :: wordsOfBytes bs) (wordOfBytes_extractLsb' w)

theorem wordsOfBytes_flatMap (ws : List Word) : wordsOfBytes (ws.flatMap bytesOfWord) = ws := by
  induction ws with
  | nil => rfl
  | cons w ws ih => rw [List.flatMap_cons, wordsOfBytes_bytesOfWord_append, ih]

/-! ### ENQD and ENQB as ENQ (R135, R136) -/

theorem Block.enqd_eq_enq (b : Block aw) (n : BitVec 24) : b.enqd n = b.enq (List.replicate n.toNat 0) := by
  simp [Block.enqd, Block.enq, List.take_replicate]

theorem Block.enqb_eq_enq (b : Block aw) (raw : List Byte) : b.enqb raw = b.enq (wordsOfBytes raw) := by
  rw [Block.enqb, Block.enq, wordsOfBytes_length]

/-- Commands of the same ports and the same effect have the same outcome. -/
theorem exec_congr {i j : Instr} {s : State} (hp : permitted i.opcode = permitted j.opcode)
    (he : effectOf i s.block = effectOf j s.block) : exec i s = exec j s := by
  rw [exec_eq_command, exec_eq_command, State.command, State.command, hp, he]

theorem exec_enqd_eq_enq (n : BitVec 24) (s : State) :
    exec (.enqd n) s = exec (.enq (List.replicate n.toNat 0)) s :=
  exec_congr (funext fun p => by cases p <;> rfl) (s.block.enqd_eq_enq n)

theorem exec_enqb_eq_enq (raw : List Byte) (s : State) : exec (.enqb raw) s = exec (.enq (wordsOfBytes raw)) s :=
  exec_congr (funext fun p => by cases p <;> rfl) (s.block.enqb_eq_enq raw)

/-- Settles O40: the words of the image are the words. -/
theorem enqbOfAnImageIsEnq : Obligations.EnqbOfAnImageIsEnq := by
  intro ws s
  rw [exec_enqb_eq_enq, wordsOfBytes_flatMap]

/-- Settles O41: fewer than 4 bytes after whole words make no word. -/
theorem enqbDropsTrailingBytes : Obligations.EnqbDropsTrailingBytes := by
  intro raw rest s hraw hrest
  rw [exec_enqb_eq_enq, exec_enqb_eq_enq, wordsOfBytes_append rest hraw, wordsOfBytes_eq_nil_iff.2 hrest,
    List.append_nil]

/-! ### The flags (R32), and a push of nothing -/

theorem Block.empty_eq_false_iff {b : Block aw} (hc : b.cfgd = true) : b.empty = false ↔ 0 < b.count.toNat := by
  simp [Block.empty, hc, ← BitVec.toNat_inj, Nat.pos_iff_ne_zero]

theorem Block.full_eq_true_iff {b : Block aw} (hc : b.cfgd = true) :
    b.full = true ↔ b.count.toNat = b.cap.toNat := by
  simp [Block.full, hc, BitVec.toNat_inj]

theorem Block.Configured.push_nil {b : Block aw} (h : b.Configured) : b.push [] = b := by
  have htail : BitVec.ofNat aw (b.tail.toNat % b.cap.toNat) = b.tail := by
    rw [Nat.mod_eq_of_lt h.tail_lt, BitVec.ofNat_toNat, BitVec.setWidth_eq]
  simp [Block.push, Memory.writeRing, htail]

/-! ### ENQ (R130, R131, R133) -/

/-- Of the words offered, those an enqueue buffers: as many as are free (R131). -/
def Block.accepted (b : Block aw) (src : List Word) : List Word := src.take (min src.length b.free)

@[simp] theorem Block.accepted_length (b : Block aw) (src : List Word) :
    (b.accepted src).length = min src.length b.free := by
  simp [Block.accepted]

theorem Block.accepted_length_le (b : Block aw) (src : List Word) : (b.accepted src).length ≤ b.free :=
  (b.accepted_length src).trans_le (Nat.min_le_right ..)

theorem Block.accepted_getElem (b : Block aw) (src : List Word) {i : Nat} (hi : i < (b.accepted src).length) :
    (b.accepted src)[i] = src.getD i 0 := by
  have hsrc : i < src.length := by simp at hi; omega
  simp [Block.accepted, hsrc]

theorem permitted_enq (p : Port) : permitted .enq p = true ↔ p = .producer := by cases p <;> decide

/-- An ENQ of port P on a configured block is a push of the words accepted. -/
theorem exec_enq_eq_push {src : List Word} {s : State} (hp : s.granted.port = .producer)
    (hc : s.block.cfgd = true) :
    exec (.enq src) s = .next (s.respond (s.block.push (s.block.accepted src)) 0 []) :=
  exec_done (i := .enq src) ((permitted_enq _).2 hp) (if_pos hc)

/-- Settles O35: a push, whose words are at most FREE, so its slots are distinct and COUNT stays within CAP. -/
theorem enqBuffersTheFirstWords : Obligations.EnqBuffersTheFirstWords := by
  intro src s hs
  refine ⟨fun l hl => decode_enq hl, fun hp => ?_, fun hp hc => ?_, fun hp hc => ?_⟩
  · exact exec_failsWith_errPort (Bool.eq_false_iff.2 (mt (permitted_enq _).1 hp))
  · refine exec_failsWith_code (i := .enq src) ((permitted_enq _).2 hp) ((Block.enq_code ..).trans ?_) nofun
    simp [hc]
  · have hconf := hs.block.configured hc
    have hlen : (s.block.accepted src).length = min src.length (s.block.cap.toNat - s.block.count.toNat) :=
      s.block.accepted_length src
    have hcount := hconf.push_count (s.block.accepted_length_le src)
    have hcap : (s.block.accepted src).length ≤ s.block.cap.toNat :=
      (s.block.accepted_length_le src).trans (Nat.sub_le ..)
    rw [← hlen]
    refine ⟨_, exec_enq_eq_push hp hc, fun i hi => ?_, fun j hj => Block.push_readSlot_miss _ hj,
      hconf.push_tail _, hcount, fun hpos => ?_, ?_, fun hzero => ?_, rfl, s.block.sameInstance_push _, rfl,
      by simp, s.respond_sameOutside ..⟩
    · exact (Block.push_readSlot_hit _ hcap hi).trans (s.block.accepted_getElem src hi)
    · refine (Block.empty_eq_false_iff (b := s.block.push _) hc).2 ?_
      rw [hcount]
      exact Nat.add_pos_right _ hpos
    · exact hcount ▸ Block.full_eq_true_iff (b := s.block.push _) hc
    · rw [State.respond_block, List.eq_nil_of_length_eq_zero hzero, hconf.push_nil]
      exact ⟨rfl, rfl⟩

/-- Settles O36. -/
theorem enqTruncates : Obligations.EnqTruncates := by
  intro src s t hs hp hc ht
  obtain rfl := Host.Outcome.next.inj ((exec_enq_eq_push hp hc).symm.trans ht)
  have hconf := hs.block.configured hc
  have hfit := s.block.accepted_length_le src
  rw [State.respond_block, hconf.contents_push hfit]
  refine ⟨fun hle => ?_, fun hlt => ?_⟩
  · rw [Block.accepted, Nat.min_eq_left hle, List.take_length]
  · have hcount : (s.block.push (s.block.accepted src)).count.toNat = s.block.cap.toNat := by
      have hle := hconf.count_le
      rw [hconf.push_count hfit, Block.accepted_length, Nat.min_eq_right hlt.le, Block.free]
      omega
    refine ⟨?_, BitVec.eq_of_toNat_eq hcount, ?_⟩
    · rw [Block.accepted, Nat.min_eq_right hlt.le]
    · rw [Block.free, hcount, Block.push_cap, Nat.sub_self]

/-! ### ENQD and ENQB (R134, R136) -/

/-- Settles O37: O35 for `N` zero words. -/
theorem enqdBuffersZeros : Obligations.EnqdBuffersZeros := by
  intro n s hs
  obtain ⟨-, hport, hunconf, hdone⟩ := enqBuffersTheFirstWords (List.replicate n.toNat 0) s hs
  rw [exec_enqd_eq_enq]
  refine ⟨decode_enqd n, hport, hunconf, fun hp hc => ?_⟩
  simp only [List.length_replicate] at hdone
  obtain ⟨t, ht, hslots, hrest⟩ := hdone hp hc
  refine ⟨t, ht, fun i hi => (hslots i hi).trans ?_, hrest⟩
  simp [lt_of_lt_of_le hi (Nat.min_le_left ..)]

/-- Settles O39: O35 for the words of the bytes. -/
theorem enqbBuffersDecodedWords : Obligations.EnqbBuffersDecodedWords := by
  intro raw s hs
  obtain ⟨-, hport, hunconf, hdone⟩ := enqBuffersTheFirstWords (wordsOfBytes raw) s hs
  rw [exec_enqb_eq_enq]
  refine ⟨fun l hl => decode_enqb hl, hport, hunconf, fun hp hc => ?_⟩
  simp only [wordsOfBytes_length] at hdone
  obtain ⟨t, ht, hslots, hrest⟩ := hdone hp hc
  exact ⟨t, ht, fun i hi => (hslots i hi).trans (wordsOfBytes_getD (lt_of_lt_of_le hi (Nat.min_le_left ..))), hrest⟩

end Sys2Proof.Machine

/-! PROOFS. Dequeue (42_dequeue.md): a destination after a response's slots (R167), the slot list of a DEQ (R160), and
what each kind of underrun leaves in the destination (R161 to R163); ENQ and DEQ together as a FIFO (R164). -/

namespace Sys2Proof

theorem decode_deq (d : BitVec 24) (z : Bool) :
    decode (0x80000000 ||| ((BitVec.ofBool z).setWidth 32 <<< 24) ||| d.setWidth 32) [] = .ok (.deq d z) :=
  decode_encode (i := .deq d z) rfl

end Sys2Proof

namespace Sys2Proof.Machine

variable {aw : Nat}

/-! ### The destination after a response's slots (R167) -/

@[simp] theorem applySlots_length (dst : List Word) (slots : List Slot) :
    (applySlots dst slots).length = dst.length := by
  induction dst, slots using applySlots.induct with
  | case1 dst => rw [applySlots_nil]
  | case2 => rfl
  | case3 _ dst v ss ih => simp [applySlots, ih]
  | case4 d dst ss ih => simp [applySlots, ih]

/-- What a slot leaves in a place that holds `d` (R160). -/
def Slot.applyTo : Slot → Word → Word
  | .write v, _ => v
  | .keep, d => d

/-- Each place is as its own slot leaves it; past the slots it is kept. -/
theorem applySlots_getElem? (dst : List Word) (slots : List Slot) (i : Nat) :
    (applySlots dst slots)[i]? = dst[i]?.map (slots[i]?.getD .keep).applyTo := by
  induction dst, slots using applySlots.induct generalizing i with
  | case1 dst => cases h : dst[i]? <;> simp [Slot.applyTo, h]
  | case2 => rfl
  | case3 _ dst v ss ih =>
    cases i with
    | zero => rfl
    | succ i => exact ih i
  | case4 d dst ss ih =>
    cases i with
    | zero => rfl
    | succ i => exact ih i

theorem applySlots_getElem?_of_write {dst : List Word} {slots : List Slot} {i : Nat} {v : Word}
    (h : slots[i]? = some (.write v)) (hi : i < dst.length) : (applySlots dst slots)[i]? = some v := by
  rw [applySlots_getElem?, h, List.getElem?_eq_getElem hi]
  rfl

theorem applySlots_getElem?_of_keep {dst : List Word} {slots : List Slot} {i : Nat}
    (h : slots[i]? = some .keep) : (applySlots dst slots)[i]? = dst[i]? := by
  rw [applySlots_getElem?, h]
  exact Option.map_id_apply

/-- Slots that write words put the words at the front, and the slots after them apply to the places after. -/
theorem applySlots_write_append {dst ws : List Word} (h : ws.length ≤ dst.length) (ss : List Slot) :
    applySlots dst (ws.map .write ++ ss) = ws ++ applySlots (dst.drop ws.length) ss := by
  induction ws generalizing dst with
  | nil => rfl
  | cons w ws ih =>
    cases dst with
    | nil => simp at h
    | cons d dst => exact congrArg (w :: ·) (ih (Nat.le_of_succ_le_succ h))

/-- Slots that write a word into every place leave nothing of what the destination held. -/
theorem applySlots_write {dst ws : List Word} (h : ws.length = dst.length) : applySlots dst (ws.map .write) = ws := by
  simpa [h] using applySlots_write_append h.le []

theorem applySlots_replicate_keep (dst : List Word) (n : Nat) : applySlots dst (List.replicate n .keep) = dst := by
  induction n generalizing dst with
  | zero => exact applySlots_nil dst
  | succ n ih =>
    cases dst with
    | nil => rfl
    | cons d dst => exact congrArg (d :: ·) (ih dst)

/-- Settles O48: a result is applied to the destination by `applySlots`, and a failing one is clean, so has no slots. -/
theorem slotsUpdateTheDestination : Obligations.SlotsUpdateTheDestination := by
  refine ⟨fun dst slots hlen => ⟨applySlots_length .., fun i v h => ?_, fun i => applySlots_getElem?_of_keep⟩,
    fun d z s => ?_⟩
  · exact applySlots_getElem?_of_write h (hlen ▸ (List.getElem?_eq_some_iff.1 h).1)
  · refine ⟨_, _, _, (exec_eq_execAt ..).trans (execAt_eq_answer ..), State.answerWith_log .., rfl, fun hcode => ?_⟩
    rw [commandResult_cleanFailure _ _ _ hcode]
    exact ⟨rfl, applySlots_nil _⟩

/-! ### The slot list of a DEQ (R160) -/

/-- On this hardware the tail of every underrun is zeros for Z = 1, kept for Z = 0. -/
theorem tailSlot_zero (z : Bool) (c : Nat) : tailSlot .zero z c = if z then .write 0 else .keep := by
  cases z with
  | false => rfl
  | true => simp [tailSlot]

theorem Block.deqSlots_getElem?_of_lt (b : Block aw) (fill : Config.PartialFill) {d : Nat} (z : Bool) {i : Nat}
    (hi : i < min d b.count.toNat) :
    (b.deqSlots fill d z)[i]? = some (.write (b.readSlot ((b.head.toNat + i) % b.cap.toNat))) := by
  rw [Block.deqSlots, List.getElem?_append_left (by simpa using hi), List.getElem?_map,
    List.getElem?_eq_getElem (by simpa using hi), Block.readRing_getElem, Option.map_some]

theorem Block.deqSlots_getElem?_of_le (b : Block aw) (fill : Config.PartialFill) {d : Nat} (z : Bool) {i : Nat}
    (hn : min d b.count.toNat ≤ i) (hi : i < d) :
    (b.deqSlots fill d z)[i]? = some (tailSlot fill z b.count.toNat) := by
  rw [Block.deqSlots, List.getElem?_append_right (by simpa using hn), List.getElem?_replicate_of_lt]
  rw [List.length_map, Block.readRing_length]
  omega

/-- A DEQ of at least COUNT words answers all the buffered words, then the tail. -/
theorem Block.deqSlots_of_count_le (b : Block aw) (fill : Config.PartialFill) {d : Nat} (z : Bool)
    (h : b.count.toNat ≤ d) :
    b.deqSlots fill d z =
      b.contents.map .write ++ List.replicate (d - b.count.toNat) (tailSlot fill z b.count.toNat) := by
  rw [Block.deqSlots, Nat.min_eq_right h, Block.contents]

/-! ### DEQ (R160) -/

theorem permitted_deq (p : Port) : permitted .deq p = true ↔ p = .consumer := by cases p <;> decide

/-- A DEQ of port C on a configured block is a pop of the words there are. -/
theorem exec_deq_eq_pop (d : BitVec 24) (z : Bool) {s : State} (hp : s.granted.port = .consumer)
    (hc : s.block.cfgd = true) :
    exec (.deq d z) s =
      .next (s.respond (s.block.pop (min d.toNat s.block.count.toNat)) 0 (s.block.deqSlots .zero d.toNat z)) :=
  exec_done (i := .deq d z) ((permitted_deq _).2 hp) (if_pos hc)

theorem Block.Configured.pop_zero {b : Block aw} (h : b.Configured) : b.pop 0 = b := by
  have hhead : BitVec.ofNat aw (b.head.toNat % b.cap.toNat) = b.head := by
    rw [Nat.mod_eq_of_lt h.head_lt, BitVec.ofNat_toNat, BitVec.setWidth_eq]
  simp [Block.pop, hhead]

theorem Block.Configured.empty_pop_eq_true_iff {b : Block aw} (h : b.Configured) (hc : b.cfgd = true) (n : Nat) :
    (b.pop n).empty = true ↔ b.count.toNat - n = 0 := by
  have hempty := Block.empty_eq_false_iff (b := b.pop n) hc
  rw [h.pop_count] at hempty
  rw [← Bool.not_eq_false, hempty, Nat.pos_iff_ne_zero, not_not]

/-- A block that a pop has taken a word from is not full. -/
theorem Block.Configured.full_pop_eq_false {b : Block aw} (h : b.Configured) (hc : b.cfgd = true) {n : Nat}
    (hpos : 0 < n) (hn : n ≤ b.count.toNat) : (b.pop n).full = false := by
  refine Bool.eq_false_iff.2 fun hfull => ?_
  have hcount : b.count.toNat - n = b.cap.toNat :=
    (h.pop_count n).symm.trans ((Block.full_eq_true_iff (b := b.pop n) hc).1 hfull)
  have hle := h.count_le
  omega

/-- Settles O42: a pop, which moves HEAD and COUNT alone. -/
theorem deqTakesTheOldestWords : Obligations.DeqTakesTheOldestWords := by
  intro d z s hs
  refine ⟨decode_deq d z, fun hp => ?_, fun hp hc => ?_, fun hp hc => ?_⟩
  · exact exec_failsWith_errPort (Bool.eq_false_iff.2 (mt (permitted_deq _).1 hp))
  · refine exec_failsWith_code (i := .deq d z) ((permitted_deq _).2 hp) ((Block.deq_code ..).trans ?_) nofun
    simp [hc]
  · have hconf := hs.block.configured hc
    refine ⟨_, _, exec_deq_eq_pop d z hp hc, Block.deqSlots_length .., fun i hi => ?_, fun i hn hi => ?_,
      hconf.pop_head _, hconf.pop_count _, (hconf.empty_pop_eq_true_iff hc _).2, fun hpos => ?_, fun hzero => ?_,
      rfl, fun _ => rfl, s.block.sameInstance_pop _, rfl, State.respond_log .., s.respond_sameOutside ..⟩
    · exact s.block.deqSlots_getElem?_of_lt .zero z hi
    · exact (s.block.deqSlots_getElem?_of_le .zero z hn hi).trans (congrArg some (tailSlot_zero ..))
    · exact hconf.full_pop_eq_false hc hpos (Nat.min_le_right ..)
    · rw [State.respond_block, hzero, hconf.pop_zero]
      exact ⟨rfl, rfl⟩

theorem Block.contents_eq_nil {b : Block aw} (hcount : b.count = 0) : b.contents = [] :=
  List.eq_nil_of_length_eq_zero (b.contents_length.trans (congrArg BitVec.toNat hcount))

/-! ### Underruns (R161, R162, R163) -/

/-- Z = 0: the words buffered come first, then what the destination held. -/
theorem Block.applySlots_deqSlots_keep (b : Block aw) (fill : Config.PartialFill) {d : Nat} {dst : List Word}
    (hcount : b.count.toNat ≤ d) (hlen : dst.length = d) :
    applySlots dst (b.deqSlots fill d false) = b.contents ++ dst.drop b.count.toNat := by
  rw [b.deqSlots_of_count_le fill false hcount, applySlots_write_append (by rw [b.contents_length, hlen]; exact hcount),
    b.contents_length, tailSlot, applySlots_replicate_keep]

/-- Z = 1: the slots write the words buffered, then zeros. -/
theorem Block.deqSlots_fill (b : Block aw) {d : Nat} (hcount : b.count.toNat ≤ d) :
    b.deqSlots .zero d true = (b.contents ++ List.replicate (d - b.count.toNat) 0).map .write := by
  rw [b.deqSlots_of_count_le .zero true hcount, tailSlot_zero, List.map_append, List.map_replicate, if_pos rfl]

/-- Z = 1: the destination is the words buffered, then zeros, whatever it held. -/
theorem Block.applySlots_deqSlots_fill (b : Block aw) {d : Nat} {dst : List Word} (hcount : b.count.toNat ≤ d)
    (hlen : dst.length = d) :
    applySlots dst (b.deqSlots .zero d true) = b.contents ++ List.replicate (d - b.count.toNat) 0 := by
  rw [b.deqSlots_fill hcount, applySlots_write]
  simp [hlen, hcount]

/-- Settles O43: the slots past COUNT all keep, so the destination is the queue and then its own rest. -/
theorem underrunKeepsTheDestination : Obligations.UnderrunKeepsTheDestination := by
  intro d s hp hc hcount hlen
  refine ⟨_, _, _, exec_deq_eq_pop d false hp hc, State.respond_log .., rfl, fun i hi => ?_, fun i hi => ?_⟩ <;>
    rw [s.block.applySlots_deqSlots_keep .zero hcount.le hlen]
  · exact List.getElem?_append_left (by rwa [Block.contents_length])
  · rw [List.getElem?_append_right (by rwa [Block.contents_length]), List.getElem?_drop, Block.contents_length,
      Nat.add_sub_cancel' hi]

/-- Settles O44: with COUNT = 0 there is no word before the zeros, and a pop of nothing changes nothing. -/
theorem totalUnderrunIsSilence : Obligations.TotalUnderrunIsSilence := by
  intro d s hs hp hc hcount hlen
  have hzero : s.block.count.toNat = 0 := congrArg BitVec.toNat hcount
  have hle : s.block.count.toNat ≤ d.toNat := hzero ▸ Nat.zero_le _
  refine ⟨_, exec_deq_eq_pop d true hp hc, ?_, ?_, s.respond_sameOutside ..⟩
  · rw [State.respond_log, s.block.applySlots_deqSlots_fill hle hlen, s.block.deqSlots_fill hle,
      Block.contents_eq_nil hcount, hzero, List.nil_append, List.map_replicate, Nat.sub_zero]
  · rw [State.respond_block, hzero, Nat.min_zero, (hs.block.configured hc).pop_zero]

/-- Settles O45: the slots are the queue and then zeros, all of them written. -/
theorem partialUnderrunIsZeroFilled : Obligations.PartialUnderrunIsZeroFilled := by
  intro d s hp hc _ hcount hlen
  refine ⟨_, exec_deq_eq_pop d true hp hc, ?_⟩
  rw [State.respond_log, s.block.applySlots_deqSlots_fill hcount.le hlen, s.block.deqSlots_fill hcount.le,
    List.map_append, List.map_replicate]

/-! ### The FIFO law (R164) -/

/-- The cursors of an empty configured block meet. -/
theorem Block.Configured.head_eq_tail {b : Block aw} (h : b.Configured) (hcount : b.count = 0) : b.head = b.tail := by
  have hzero : b.count.toNat = 0 := congrArg BitVec.toNat hcount
  apply BitVec.eq_of_toNat_eq
  rw [h.tail_eq, hzero, Nat.add_zero, Nat.mod_eq_of_lt h.head_lt]

/-- An ENQ of words there is room for is a push of them all. -/
theorem Block.enq_of_length_le {b : Block aw} (hc : b.cfgd = true) {src : List Word} (h : src.length ≤ b.free) :
    b.enq src = .done (b.push src) 0 [] := by
  rw [Block.enq, if_pos hc, Nat.min_eq_left h, List.take_length]

/-- A DEQ of COUNT words answers the words buffered, with no tail, and empties the block. -/
theorem Block.deq_count {b : Block aw} (hc : b.cfgd = true) (fill : Config.PartialFill) {d : BitVec 24} (z : Bool)
    (h : d.toNat = b.count.toNat) :
    b.deq fill d z = .done (b.pop b.count.toNat) 0 (b.contents.map .write) := by
  rw [Block.deq, if_pos hc, b.deqSlots_of_count_le fill z h.ge, h, Nat.min_self, Nat.sub_self, List.replicate_zero,
    List.append_nil]

/-- Settles O47: the push puts the words into the empty queue, and the DEQ takes the whole queue. -/
theorem fifoRoundTrip : Obligations.FifoRoundTrip := by
  intro aw fill b src k z _ hb hc hempty hfit hk
  have hconf := hb.configured hc
  have hcontents : (b.push src).contents = src := by
    rw [hconf.contents_push hfit, Block.contents_eq_nil hempty, List.nil_append]
  have hcount : (b.push src).count.toNat = src.length := by rw [← Block.contents_length, hcontents]
  have hzero : ((b.push src).pop (b.push src).count.toNat).count = 0 :=
    BitVec.eq_of_toNat_eq (by rw [(hconf.push hfit).pop_count, Nat.sub_self]; rfl)
  refine ⟨_, _, Block.enq_of_length_le hc hfit, ?_, hzero, ((hconf.push hfit).pop le_rfl).head_eq_tail hzero⟩
  rw [Block.deq_count (b := b.push src) hc fill z (hk.trans hcount.symm), hcontents]

end Sys2Proof.Machine

/-! PROOFS. Register read (43_register_read.md): the words with RDREG's OP that decode, and what each register reads
(R190). -/

namespace Sys2Proof

/-! ### The words with RDREG's OP (R71, R75) -/

theorem Reg.addr_le (a : Reg) : a.addr.toNat ≤ 0x09 := by cases a <;> decide

/-- The word of an RDREG has its register's address in [27:0], and zeros above the address. -/
theorem setWidth_encode_rdreg (a : Reg) : (encode (.rdreg a)).1.setWidth 28 = a.addr.setWidth 28 := by
  cases a <;> rfl

theorem eq_rdreg_of_decode {w : Word} {payload : List Elem} {i : Instr} (h : decode w payload = .ok i)
    (hop : opField w = Opcode.rdreg.bits) : ∃ a, i = .rdreg a := by
  obtain ⟨op, hop', -, -, -, hi⟩ := decode_ok h
  obtain rfl : op = .rdreg := Option.some.inj (hop'.symm.trans (opcodeOf_eq_some.2 hop))
  obtain ⟨a, -, ha⟩ := Option.map_eq_some_iff.1 hi
  exact ⟨a, ha.symm⟩

theorem setWidth_le_of_decode {w : Word} {payload : List Elem} {i : Instr} (h : decode w payload = .ok i)
    (hop : opField w = Opcode.rdreg.bits) : (w.setWidth 28).toNat ≤ 0x09 := by
  obtain ⟨a, rfl⟩ := eq_rdreg_of_decode h hop
  obtain ⟨-, henc⟩ := encode_of_decode h
  obtain rfl : (encode (.rdreg a)).1 = w := congrArg Prod.fst henc
  rw [setWidth_encode_rdreg, BitVec.toNat_setWidth]
  exact (Nat.mod_le ..).trans a.addr_le

/-- The word that O49 writes for any 28 bits has RDREG's OP. -/
theorem opField_rdregWord (x : BitVec 28) : opField (0xC0000000 ||| x.setWidth 32) = Opcode.rdreg.bits := by
  have hx : (x.setWidth 32).extractLsb' 28 4 = 0#4 := by
    apply BitVec.eq_of_toNat_eq
    simp only [BitVec.extractLsb'_toNat, BitVec.toNat_setWidth, Nat.shiftRight_eq_div_pow, BitVec.toNat_ofNat]
    omega
  simp [opField, BitVec.extractLsb'_or, hx, Opcode.bits]

theorem setWidth_rdregWord (x : BitVec 28) : (0xC0000000 ||| x.setWidth 32 : Word).setWidth 28 = x := by
  simp [BitVec.setWidth_or]

theorem decode_rdregWord_error {x : BitVec 28} (hx : 0x09 < x.toNat) (payload : List Elem) :
    ∃ r, decode (0xC0000000 ||| x.setWidth 32) payload = .error r := by
  cases hd : decode (0xC0000000 ||| x.setWidth 32) payload with
  | error r => exact ⟨r, rfl⟩
  | ok i =>
    have hle := setWidth_le_of_decode hd (opField_rdregWord x)
    rw [setWidth_rdregWord] at hle
    exact absurd hx hle.not_gt

end Sys2Proof

namespace Sys2Proof.Machine

/-! ### What RDREG answers (R31, R190) -/

theorem permitted_rdreg (p : Port) : permitted .rdreg p = true := by cases p <;> rfl

theorem exec_rdreg (a : Reg) (s : State) : exec (.rdreg a) s = .next (s.respond s.block (s.block.register a) []) :=
  exec_done (i := .rdreg a) (permitted_rdreg _) rfl

/-- FREE is at most CAP, whose AW + 1 bits fit a register. -/
theorem Block.register_free_toNat (b : Block Config.aw) :
    (b.register .free).toNat = b.cap.toNat - b.count.toNat := by
  have hcap : b.cap.toNat < 2 ^ 25 := b.cap.isLt
  rw [Block.register, Block.free, BitVec.toNat_ofNat]
  omega

/-- Settles O49: RDREG is permitted on every port and answers the register; a word with RDREG's OP that decodes is
the encoding of an RDREG, so has an address of the map in [27:0]. -/
theorem rdregReadsTheRegister : Obligations.RdregReadsTheRegister := by
  refine ⟨fun a s => ⟨_, (encode (.rdreg a)).1, s.block.register a, decode_encode (i := .rdreg a) rfl,
    exec_rdreg a s, rfl, ?_, s.respond_sameOutside .., ?_⟩, fun x hx => decode_rdregWord_error hx []⟩
  · rw [State.respond_log, applySlots_nil]
  · cases a with
    | capacity | count | head | tail => exact ⟨rfl, BitVec.toNat_setWidth_of_le (by decide)⟩
    | free => exact ⟨rfl, s.block.register_free_toNat⟩
    | status | channels | rate | buftime | reqcap => exact ⟨rfl, rfl⟩

end Sys2Proof.Machine

/-! PROOFS. Exceptions (60_exceptions.md): the transactions that decode (R201), the code each command answers with and
what LASTERR is after it (R202 to R206, R210), and the idle block (R216). -/

namespace Sys2Proof

/-! ### The transactions that do not decode (R201) -/

theorem decode_error_iff {op : Opcode} {w : Word} {payload : List Elem} (hop : opField w = op.bits) :
    (∃ r, decode w payload = .error r) ↔
      ¬ (reservedZero op w = true ∧ payload.length = payloadLength op w ∧ (operands op w payload).isSome) := by
  cases hd : decode w payload with
  | error r =>
    refine iff_of_true ⟨r, rfl⟩ fun ⟨hzero, hlen, hsome⟩ => ?_
    obtain ⟨i, hi⟩ := Option.isSome_iff_exists.1 hsome
    cases hd.symm.trans (decode_eq_ok hop hzero hlen hi)
  | ok i =>
    refine iff_of_false nofun (not_not_intro ?_)
    obtain ⟨op', hop', hzero, -, hlen, hi⟩ := decode_ok hd
    obtain rfl : op' = op := Option.some.inj (hop'.symm.trans (opcodeOf_eq_some.2 hop))
    exact ⟨hzero, hlen, hi ▸ rfl⟩

theorem decode_reservedOp {w : Word} (payload : List Elem) (hop : opcodeOf (opField w) = none) :
    decode w payload = .error .reservedOp := by
  simp [decode, hop]

/-- The OP values that are no operation's (R79). -/
theorem opcodeOf_eq_none_iff (x : BitVec 4) :
    opcodeOf x = none ↔ x ∈ [(0x0 : BitVec 4), 0x3, 0x7, 0x9, 0xA, 0xB, 0xD, 0xE, 0xF] := by
  revert x
  decide

/-- A payload comes from a list of words, or of bytes, where each of its elements is one (R76). -/
theorem exists_eq_map_iff {α : Type} (f : α → Elem) (payload : List Elem) :
    (∃ vs : List α, payload = vs.map f) ↔ ∀ e ∈ payload, ∃ v, e = f v := by
  simpa [eq_comm] using Set.ext_iff.1 (Set.range_list_map f) payload

theorem wordsOf_isSome_iff (payload : List Elem) :
    (wordsOf payload).isSome ↔ ∀ e ∈ payload, ∃ v, e = .word v := by
  simp only [Option.isSome_iff_exists, wordsOf_eq_some, exists_eq_map_iff]

theorem bytesOf_isSome_iff (payload : List Elem) :
    (bytesOf payload).isSome ↔ ∀ e ∈ payload, ∃ v, e = .byte v := by
  simp only [Option.isSome_iff_exists, bytesOf_eq_some, exists_eq_map_iff]

theorem operands_cfgr_isSome_iff {w : Word} {payload : List Elem} (hlen : payload.length = 1) :
    (operands .cfgr w payload).isSome ↔ ∀ e ∈ payload, ∃ v, e = .word v := by
  obtain ⟨e, rfl⟩ := List.length_eq_one_iff.1 hlen
  cases e <;> simp [operands]

theorem operands_cfga_isSome_iff {w : Word} {payload : List Elem} (hlen : payload.length = 3) :
    (operands .cfga w payload).isSome ↔ ∀ e ∈ payload, ∃ v, e = .word v := by
  obtain ⟨e, f, g, rfl⟩ := List.length_eq_three.1 hlen
  cases e <;> cases f <;> cases g <;> simp [operands]

theorem regOf_isSome_iff (x : BitVec 8) : (regOf x).isSome ↔ x.toNat ≤ 0x09 := by
  constructor
  · intro h
    obtain ⟨a, ha⟩ := Option.isSome_iff_exists.1 h
    exact regOf_eq_some.1 ha ▸ a.addr_le
  · intro h
    have hmap : ∀ n < 10, (regOf (BitVec.ofNat 8 n)).isSome := by decide
    simpa using hmap x.toNat (by omega)

end Sys2Proof

namespace Sys2Proof.Machine

/-- Settles O7: what an operation's transaction must pass to decode is what its lines of R201 list; the answer to one
that does not is O14's. -/
theorem decodeRejectsExactlyTheIllegal : Obligations.DecodeRejectsExactlyTheIllegal := by
  refine ⟨fun w payload => ?_, fun s p c es r hev hc hd => ?_⟩
  · cases h : opcodeOf (opField w) with
    | none => exact iff_of_true ⟨_, decode_reservedOp payload h⟩ (.inl ((opcodeOf_eq_none_iff _).1 h))
    | some op =>
      have hop : w.extractLsb' 28 4 = op.bits := opcodeOf_eq_some.1 h
      rw [decode_error_iff hop, hop]
      cases op with
      | cfgr =>
        simp [Opcode.bits, reservedZero, payloadLength, and_congr_right_iff.2 operands_cfgr_isSome_iff,
          imp_iff_not_or]
      | cfga =>
        simp [Opcode.bits, reservedZero, payloadLength, and_congr_right_iff.2 operands_cfga_isSome_iff,
          imp_iff_not_or]
      | enq | enqb =>
        simp [Opcode.bits, reservedZero, payloadLength, operands, lenField, wordsOf_isSome_iff, bytesOf_isSome_iff,
          imp_iff_not_or]
      | enqd | deq => simp [Opcode.bits, reservedZero, payloadLength, operands, imp_iff_not_or]
      | rdreg =>
        simp [Opcode.bits, reservedZero, payloadLength, operands, raddrField, regOf_isSome_iff, imp_iff_not_or,
          or_comm, or_left_comm]
  · obtain ⟨t, ht, hblock, hlog, -⟩ := illegalTransactionChangesOnlyLasterr s p c es r hev hc hd
    exact ⟨t, ht, by rw [hblock], hlog⟩

variable {aw : Nat}

/-! ### The code of each command's effect (R202, R203, R210) -/

/-- CFGD alone decides whether a data command succeeds (R203). -/
theorem effectOf_code_of_data {i : Instr}
    (hop : i.opcode = .enq ∨ i.opcode = .enqd ∨ i.opcode = .enqb ∨ i.opcode = .deq) (b : Block aw) :
    (effectOf i b).code = if b.cfgd then .ok else .errUnconf := by
  cases i with
  | enq src => exact b.enq_code src
  | enqd n => exact b.enqd_code n
  | enqb raw => exact b.enqb_code raw
  | deq d z => exact b.deq_code _ d z
  | cfgr | cfga | rdreg => simp [Instr.opcode] at hop

theorem effectOf_code_ne_errPort (i : Instr) (b : Block aw) : (effectOf i b).code ≠ .errPort := by
  cases h : effectOf i b with
  | done b' data slots => nofun
  | fail code => rcases effectOf_fail_cases h with rfl | rfl | rfl <;> nofun

/-- The other commands do not look at CFGD (R203). -/
theorem effectOf_code_ne_errUnconf {i : Instr} (hop : i.opcode = .cfgr ∨ i.opcode = .cfga ∨ i.opcode = .rdreg)
    (b : Block aw) : (effectOf i b).code ≠ .errUnconf := by
  cases i with
  | cfgr r =>
    rw [effectOf, Block.cfgr_code]
    split_ifs <;> nofun
  | cfga ch sr bt =>
    rw [effectOf, Block.cfga_code]
    split_ifs <;> nofun
  | rdreg a => nofun
  | enq | enqd | enqb | deq => simp [Instr.opcode] at hop

theorem exec_eq_answer (i : Instr) (s : State) :
    exec i s = .next (s.answerWith (commandResult i s.granted.port s.block)) :=
  (exec_eq_execAt i s).trans (execAt_eq_answer i s)

/-- The code of a command: ERR_PORT on the wrong port, else its effect's (R202). -/
theorem commandResult_code (i : Instr) (p : Port) (b : Block aw) :
    (commandResult i p b).2.code = if permitted i.opcode p then (effectOf i b).code else .errPort := by
  rw [commandResult]
  split
  · exact Effect.result_code ..
  · rfl

/-- The enqueues are port P's alone (R210). -/
theorem permitted_enqueue {op : Opcode} (hop : op = .enq ∨ op = .enqd ∨ op = .enqb) (p : Port) :
    permitted op p = true ↔ p = .producer := by
  rcases hop with rfl | rfl | rfl <;> cases p <;> decide

/-- Settles O22: the table's "no" is `permitted`'s `false`, and no effect has ERR_PORT as its code. -/
theorem wrongPortFails : Obligations.WrongPortFails := by
  intro i s no
  have hno : no ↔ ¬ permitted i.opcode s.granted.port = true := by
    cases i with
    | cfgr | cfga => exact (not_congr (permitted_configuration (by simp [Instr.opcode]) _)).symm
    | enq | enqd | enqb => exact (not_congr (permitted_enqueue (by simp [Instr.opcode]) _)).symm
    | deq => exact (not_congr (permitted_deq _)).symm
    | rdreg => exact iff_of_false id (not_not_intro (permitted_rdreg _))
  refine ⟨fun h => exec_failsWith_errPort (Bool.eq_false_iff.2 (hno.1 h)), fun h => ?_⟩
  refine ⟨_, _, _, exec_eq_answer i s, State.answerWith_log .., ?_⟩
  rw [commandResult_code, if_pos (not_not.1 (mt hno.2 h))]
  exact effectOf_code_ne_errPort i s.block

/-- Settles O23: CFGD decides the data commands' code, and no other command has ERR_UNCONF as its code. -/
theorem unconfiguredDataCommandsFail : Obligations.UnconfiguredDataCommandsFail := by
  refine ⟨fun i s hc hop => ?_, fun i s t hop ht d sl dst hlog => ?_⟩
  · have hcode : (effectOf i s.block).code = .errUnconf := by
      rw [effectOf_code_of_data (by tauto), if_neg (by simp [hc])]
    refine exec_failsWith_code ?_ hcode nofun
    rcases hop with ⟨hop, hp⟩ | ⟨hop, hp⟩
    · exact (permitted_enqueue hop _).2 hp
    · rw [hop]; exact (permitted_deq _).2 hp
  · obtain rfl := Host.Outcome.next.inj ((exec_eq_answer i s).symm.trans ht)
    obtain ⟨hr, -⟩ := State.logWith_inj.1 ((State.answerWith_log ..).symm.trans hlog)
    have hcode := (commandResult_code i s.granted.port s.block).symm.trans (congrArg Response.code hr)
    split at hcode
    · exact effectOf_code_ne_errUnconf hop _ hcode
    · cases hcode

/-- Settles O26: O59 at this hardware's AW. -/
theorem firstApplicableErrorIsReported : Obligations.FirstApplicableErrorIsReported := by
  intro s p c es hev hc
  obtain ⟨t, r, dst, ht, hlog, -, hcode⟩ := errorsAtEveryAw Config.aw s p c es hev hc
  exact ⟨t, r, dst, ht, hlog, hcode⟩

/-! ### LASTERR (R205, R206) -/

theorem effectOf_done_lasterr {i : Instr} {b b' : Block aw} {data : Word} {slots : List Slot}
    (h : effectOf i b = .done b' data slots) : b'.lasterr = b.lasterr := by
  rcases effectOf_done_cases h with
    ⟨_, _, _, _, _, -, -, -, -, -, rfl, -⟩ | ⟨-, -, ws, -, rfl, -⟩ | ⟨-, d, z, -, rfl, -⟩ | ⟨a, -, rfl, -⟩ <;>
    rfl

/-- No effect fails with OK, so OK is the code of success. -/
theorem effectOf_done_of_code_ok {i : Instr} {b : Block aw} (h : (effectOf i b).code = .ok) :
    ∃ b' data slots, effectOf i b = .done b' data slots := by
  cases he : effectOf i b with
  | done b' data slots => exact ⟨b', data, slots, rfl⟩
  | fail code =>
    rw [he] at h
    rcases effectOf_fail_cases he with rfl | rfl | rfl <;> cases h

theorem commandResult_lasterr_of_ok {i : Instr} {p : Port} {b : Block aw}
    (h : (commandResult i p b).2.code = .ok) : (commandResult i p b).1.lasterr = b.lasterr := by
  rw [commandResult_code] at h
  split at h
  · next hp =>
    obtain ⟨b', data, slots, he⟩ := effectOf_done_of_code_ok h
    rw [commandResult_permitted b hp, he]
    exact effectOf_done_lasterr he
  · cases h

theorem performResult_lasterr_of_ok {p : Port} {c : Command} {b : Block aw}
    (h : (performResult p c b).2.code = .ok) : (performResult p c b).1.lasterr = b.lasterr := by
  cases hd : decode c.word c.payload with
  | ok i =>
    rw [performResult_ok b hd] at h ⊢
    exact commandResult_lasterr_of_ok h
  | error r =>
    rw [performResult_error b hd] at h
    cases h

theorem CleanFailure.lasterr {b : Block aw} {x : Block aw × Response} (hx : CleanFailure b x)
    (h : x.2.code ≠ .ok) : x.1.lasterr = x.2.code :=
  congrArg (fun y => y.1.lasterr) (hx h)

theorem State.advance_reset {s : State aw} {es : List Event} (h : s.events = .reset :: es) :
    s.advance = .next (State.hardReset { s with events := es }) := by
  simp only [State.advance, h, State.happen]

/-- Settles O24: of the moves of a step only the one that performs a command touches the block, and only its failure
sets LASTERR. -/
theorem lasterrIsSticky : Obligations.LasterrIsSticky := by
  refine ⟨fun s t ht hr => ?_, fun s t es hev ht => ?_, fun b => ?_⟩
  · cases State.advance_move ht hr with
    | stay block log port => exact .inl ⟨log, by rw [block]⟩
    | issue p c cs idle next block log port => exact .inl ⟨log, by rw [block]⟩
    | perform p c pending block log port =>
      refine .inr ⟨_, log, ?_⟩
      rw [block]
      exact ⟨performResult_lasterr_of_ok, (performResult_cleanFailure p c s.block).lasterr⟩
  · obtain rfl := Host.Outcome.next.inj ((State.advance_reset hev).symm.trans ht)
    rfl
  · obtain ⟨-, -, -, -, -, hlasterr, -⟩ := statusFields Config.aw b
    exact hlasterr

/-- Settles O25: under the hypotheses the effect's code is OK. -/
theorem normalConditionsAreNotErrors : Obligations.NormalConditionsAreNotErrors := by
  intro i s hp hi
  have hcode : (commandResult i s.granted.port s.block).2.code = .ok := by
    rw [commandResult_code, if_pos hp]
    cases i with
    | cfgr r =>
      obtain ⟨h1, h2⟩ := hi
      rw [effectOf, Block.cfgr, s.block.construct_eq_done h1 h2, Effect.code]
    | cfga ch sr bt =>
      obtain ⟨h1, h2⟩ := hi
      rw [effectOf, s.block.cfga_eq_done h1 h2, Effect.code]
    | enq | enqd | enqb | deq => rw [effectOf_code_of_data (by simp [Instr.opcode]), if_pos hi]
    | rdreg a => rfl
  exact ⟨_, _, _, exec_eq_answer i s, State.answerWith_log .., hcode, commandResult_lasterr_of_ok hcode⟩

/-! ### The idle block (R216) -/

theorem State.enabled_of_idle {s : State aw} (h : ∀ p, s.port p = .idle) : s.enabled = [] := by
  simp [State.enabled, State.enabledAt, h, PortState.idle]

theorem State.advance_idle {s : State aw} (hev : s.events = []) (hen : s.enabled = []) : s.advance = .next s := by
  simp only [State.advance, hev, State.proceed, hen]

/-- Settles O16: an idle port has nothing to perform and nothing to issue. -/
theorem idleBlockKeepsItsState : Obligations.IdleBlockKeepsItsState :=
  fun _ hev hidle => State.advance_idle hev (State.enabled_of_idle hidle)

end Sys2Proof.Machine

/-! PROOFS. Reset and hazards (70_reset_and_hazards.md): a hardware reset between two commands (R240), and the end of a
run (R253): while a port has a command outstanding or to issue, an open step takes one off the work left. -/

namespace Sys2Proof.Machine

variable {aw : Nat}

/-! ### Hardware reset (R240) -/

/-- Settles O3: a step whose event is a reset is `State.hardReset`. -/
theorem hardwareResetBetweenCommands : Obligations.HardwareResetBetweenCommands :=
  fun _ _ hev => ⟨_, State.advance_reset hev, ⟨_, rfl⟩, by simp, rfl, rfl, rfl, rfl⟩

/-! ### A machine with nothing left to do (R216, R253) -/

theorem PortState.work_eq_zero_iff {ps : PortState} : ps.work = 0 ↔ ps = .idle := by
  obtain ⟨outstanding, upcoming⟩ := ps
  simp [PortState.work, PortState.idle]

theorem forall_port_iff {P : Port → Prop} : (∀ p, P p) ↔ P .host ∧ P .producer ∧ P .consumer :=
  ⟨fun h => ⟨h .host, h .producer, h .consumer⟩, fun ⟨hh, hp, hc⟩ p => by cases p <;> assumption⟩

theorem State.work_eq_zero_iff {s : State aw} : s.work = 0 ↔ ∀ p, s.port p = .idle := by
  simp only [State.work, Nat.add_eq_zero_iff, PortState.work_eq_zero_iff, forall_port_iff, State.port, and_assoc]

theorem State.enabledAt_eq_nil_iff {s : State aw} {p : Port} : s.enabledAt p = [] ↔ s.port p = .idle := by
  unfold State.enabledAt
  obtain ⟨outstanding, upcoming⟩ := s.port p
  cases outstanding <;> cases upcoming <;> simp [PortState.idle]

theorem State.enabled_eq_nil_iff {s : State aw} : s.enabled = [] ↔ ∀ p, s.port p = .idle := by
  simp only [State.enabled, List.append_eq_nil_iff, State.enabledAt_eq_nil_iff, forall_port_iff, and_assoc]

theorem State.commandsOf_of_idle {s : State aw} {p : Port} (h : s.port p = .idle) :
    s.commandsOf p = s.answeredOf p := by
  simp [State.commandsOf, h, PortState.idle]

/-! ### An open step takes one off the work left (log entry 3) -/

theorem PortState.work_of_outstanding {ps : PortState} {c : Command} (ho : ps.outstanding = some c) :
    ps.work = PortState.work ⟨none, ps.upcoming⟩ + 1 := by
  simp [PortState.work, ho, Nat.add_comm]

theorem PortState.work_of_upcoming {ps : PortState} {c : Command} {cs : List Command}
    (ho : ps.outstanding = none) (hu : ps.upcoming = c :: cs) : ps.work = PortState.work ⟨some c, cs⟩ + 1 := by
  simp [PortState.work, ho, hu]
  omega

/-- Where one port has one event less to wait for and the others are as they were, so has the machine. -/
theorem State.work_succ_of_port {s t : State aw} {p : Port} {ps : PortState}
    (hps : (s.port p).work = ps.work + 1) (hport : ∀ q, t.port q = if q = p then ps else s.port q) :
    s.work = t.work + 1 := by
  simp only [State.work, ← State.port_host, ← State.port_producer, ← State.port_consumer, hport]
  cases p <;> simp <;> omega

/-- Performing an outstanding command saves its grant; issuing a command saves one of the two events it needs. -/
theorem State.happen_enabled {s : State aw} {e : Event} (h : e ∈ s.enabled) :
    ∃ t, s.happen e = .next t ∧ t.events = s.events ∧ s.work = t.work + 1 := by
  rcases State.mem_enabled h with ⟨p, c, rfl, ho⟩ | ⟨p, c, cs, rfl, ho, hu⟩
  · exact ⟨_, (State.happen_grant ho).trans (State.perform_eq_answer s p c), State.accept_events s p c,
      State.work_succ_of_port (PortState.work_of_outstanding ho) (by simp)⟩
  · exact ⟨_, State.issue_next hu ho, State.setPort_events ..,
      State.work_succ_of_port (PortState.work_of_upcoming ho hu) (by simp)⟩

theorem State.advance_open {s : State aw} (hev : s.events = []) : s.advance = s.proceed := by
  simp only [State.advance, hev]

/-- An open step does something that is enabled wherever anything is. -/
theorem State.advance_enabled {s : State aw} (hev : s.events = []) (hen : s.enabled ≠ []) :
    ∃ e k, e ∈ s.enabled ∧ s.advance = State.happen { s with choices := k } e := by
  rw [State.advance_open hev, State.proceed]
  split
  · next hn => exact absurd hn hen
  · next e hn => exact ⟨e, s.choices, by simp [hn], rfl⟩
  · next e es _ hn => exact ⟨_, s.choices + 1, hn ▸ choose_mem _ _ _, rfl⟩

theorem State.advance_work {s : State aw} (hev : s.events = []) (hwork : s.work ≠ 0) :
    ∃ t, s.advance = .next t ∧ t.events = [] ∧ s.work = t.work + 1 := by
  have hen : s.enabled ≠ [] := by rwa [Ne, State.enabled_eq_nil_iff, ← State.work_eq_zero_iff]
  obtain ⟨e, k, he, hadv⟩ := State.advance_enabled hev hen
  obtain ⟨t, ht, htev, htwork⟩ := State.happen_enabled (s := { s with choices := k }) he
  exact ⟨t, hadv.trans ht, htev.trans hev, htwork⟩

/-! ### The end of a run (R253) -/

theorem run_succ_of_step {M : Host.Core} {s t : M.State} (h : M.step s = .next t) (k : Nat) :
    M.run (k + 1) s = M.run k t := by
  simp only [Host.Core.run, h]

/-- As many open steps as there is work leave every port idle, and keep each port's list of commands. -/
theorem State.run_work (n : Nat) : ∀ s : State aw, s.events = [] → s.work = n →
    ∃ t : State aw, (machineAt aw).run n s = .next t ∧ ∀ p, t.port p = .idle ∧ t.commandsOf p = s.commandsOf p := by
  induction n with
  | zero => exact fun s _ hwork => ⟨s, rfl, fun p => ⟨State.work_eq_zero_iff.1 hwork p, rfl⟩⟩
  | succ n ih =>
    intro s hev hwork
    obtain ⟨u, hu, huev, huwork⟩ := State.advance_work hev (by omega)
    obtain ⟨t, ht, hend⟩ := ih u huev (by omega)
    have hkeep := (State.advance_move hu (by simp [State.noReset, hev])).commandsOf_eq
    exact ⟨t, (run_succ_of_step (M := machineAt aw) hu n).trans ht,
      fun p => ⟨(hend p).1, (hend p).2.trans (hkeep p)⟩⟩

/-- Settles O21: at the end of the run an idle port's list is what it has had answered. -/
theorem everyListedCommandIsAnswered : Obligations.EveryListedCommandIsAnswered := by
  intro s hev
  obtain ⟨t, ht, hend⟩ := State.run_work s.work s hev rfl
  refine ⟨t, ht, fun p => ?_⟩
  obtain ⟨hidle, hkeep⟩ := hend p
  exact ⟨hidle, (State.commandsOf_of_idle hidle).symm.trans hkeep⟩

end Sys2Proof.Machine

/-! PROOFS. What follows from the rules at this model's choices: an arbiter that never idles (log entry 3), ENQD as ENQ
(R135), and the other value of parameter `partialUnderrunFill` (D20). -/

namespace Sys2Proof.Machine

variable {aw : Nat}

/-! ### The arbiter never idles (log entry 3) -/

theorem State.work_ne_zero_iff {s : State aw} : s.work ≠ 0 ↔ ∃ p, s.port p ≠ .idle := by
  rw [Ne, State.work_eq_zero_iff, not_forall]

/-- Settles O20: a port that is not idle leaves work to do, and an open step takes one off it. -/
theorem everyOpenStepMakesProgress : Obligations.EveryOpenStepMakesProgress := by
  intro s hev hbusy
  obtain ⟨t, ht, htev, hwork⟩ := State.advance_work hev (State.work_ne_zero_iff.2 hbusy)
  exact ⟨t, ht, htev, hwork ▸ Nat.lt_succ_self t.work⟩

/-! ### ENQD as ENQ (R135) -/

/-- Settles O38: both are commands of port P with one effect on the block. -/
theorem enqdIsEnqOfZeros : Obligations.EnqdIsEnqOfZeros := exec_enqd_eq_enq

/-! ### A partial underrun that keeps the tail (D20) -/

theorem tailSlot_untouched {c : Nat} (z : Bool) (hc : c ≠ 0) : tailSlot .untouched z c = .keep := by
  cases z with
  | false => rfl
  | true => exact if_neg hc

/-- Settles O46: the queue comes first, and its words being at least one, every slot after it keeps. -/
theorem untouchedFillKeepsTheTail : Obligations.UntouchedFillKeepsTheTail := by
  intro aw b d hcfgd hpos hcount
  rw [Block.deq, if_pos hcfgd, Nat.min_eq_right hcount.le, b.deqSlots_of_count_le .untouched true hcount.le,
    tailSlot_untouched true hpos.ne']

end Sys2Proof.Machine
